-- ==== Sys2Proof/Word.lean ====
section
/-! DEFINITION. The value types every rule uses: bytes, halves, words and byte sequences (spec/00_scope.md R6, R8). -/

namespace Sys2Proof

/-- R6: "A byte is an 8-bit unsigned value 0..255." -/
abbrev Byte := BitVec 8

/-- A 16-bit field (node ids, lengths, checksums). -/
abbrev Half := BitVec 16

/-- A 32-bit field (timestamps). -/
abbrev Word := BitVec 32

/-- R8: "`Bytes` is a finite sequence of bytes", first byte at index 0. -/
abbrev Bytes := List Byte

end Sys2Proof
end

