-- ==== Sys2Proof/Config.lean ====
section
/-! DEFINITION. What one engine fixes and the spec leaves open (spec/00_scope.md R5): the packet-type codes, the
capacity of the byte operands, the payload limit, and the free values NOW and completion order. The free values
are constants with no body: nothing in Lean can say what they are. -/

namespace Sys2Proof

/-- R79: the nine packet-type names, in the source's order (the name index is the position). -/
inductive PacketType where
  | beacon | textMessage | voiceStart | voiceData | voiceEnd | alert | ack | fileChunk | emergencyBroadcast
deriving DecidableEq, Repr

/-- R80: a map from the nine names to bytes, written out as data. -/
structure TypeCodes where
  beacon : Byte
  textMessage : Byte
  voiceStart : Byte
  voiceData : Byte
  voiceEnd : Byte
  alert : Byte
  ack : Byte
  fileChunk : Byte
  emergencyBroadcast : Byte
deriving DecidableEq, Repr, Inhabited

/-- `TYPE_CODE(name)`. -/
def TypeCodes.code (t : TypeCodes) : PacketType → Byte
  | .beacon => t.beacon
  | .textMessage => t.textMessage
  | .voiceStart => t.voiceStart
  | .voiceData => t.voiceData
  | .voiceEnd => t.voiceEnd
  | .alert => t.alert
  | .ack => t.ack
  | .fileChunk => t.fileChunk
  | .emergencyBroadcast => t.emergencyBroadcast

/-- The codes in name-index order. -/
def TypeCodes.toList (t : TypeCodes) : List Byte :=
  [t.beacon, t.textMessage, t.voiceStart, t.voiceData, t.voiceEnd, t.alert, t.ack, t.fileChunk,
    t.emergencyBroadcast]

/-- R80: legal type codes are an *injective* map. -/
def TypeCodes.distinct (t : TypeCodes) : Bool := decide t.toList.Nodup

/-- R80's profile P1, `TYPE_CODE(name index i) = i + 1`: the test vectors' choice, no claim about an engine. -/
def profileP1 : TypeCodes := ⟨1, 2, 3, 4, 5, 6, 7, 8, 9⟩

/-- The parameters of R5 that a command's result depends on. -/
structure Params where
  typeCodes  : TypeCodes
  maxPayload : Nat
deriving DecidableEq, Repr

/-- FREE VALUE (log 2): nine bytes of which nothing is known. -/
opaque Config.rawTypeCodes : TypeCodes

/-- `TYPE_CODE` of this engine (R80, OPEN): any nine distinct bytes (log 2, safe). Where the free value is distinct it
IS the map; where it is not it stands for no engine, and another legal map takes its place. -/
def Config.typeCodes : TypeCodes :=
  if Config.rawTypeCodes.distinct then Config.rawTypeCodes else profileP1

/-- FREE VALUE (log 3): how far BUF_CAP lies above its least legal value; `none` when it is unbounded. -/
opaque Config.capAbove : Option Nat

/-- R24's least legal `BUF_CAP`, 32 + 65535. -/
def Config.leastCap : Nat := 65567

/-- `BUF_CAP` (R24, OPEN): at least 65567, or unbounded (`none`). -/
def Config.bufCap : Option Nat := Config.capAbove.map (Config.leastCap + ·)

/-- `MAX_PAYLOAD` (R111): the spec's decision, 65535. DESIGN CHOICE among {65503, 65535}, log 5, unsafe. -/
def Config.maxPayload : Nat := 65535

/-- The parameters of this engine. -/
def Config.params : Params := ⟨Config.typeCodes, Config.maxPayload⟩

/-- FREE VALUE (R27, log 6): the environment's answer to the n-th read of `NOW`. -/
opaque Config.now : Nat → Word

/-- FREE VALUE (R59, log 8): which outstanding command completes at the n-th free choice. -/
opaque Config.completes : Nat → Nat

end Sys2Proof
end

