-- ==== Sys2Proof/Syntax.lean ====
section
/-! DEFINITION. The commands of the engine (spec/30_encoding.md R70, R71), one constructor per row of
spec/opcode_table.json, and the fields of a command word before it is checked. -/

namespace Sys2Proof

/-- R71: the seven commands. Operands are not packed into the command word (R74): they are request fields. Only
PKT_ENCODE has modifier bits (R72). -/
inductive Instr where
  | crc16
  | pktEncode (ttlp tsp : Bool)
  | pktDecode
  | addressed
  | alertPriority
  | alertEncode
  | alertDecode
deriving DecidableEq, Repr

/-- R70: the fields of a 16-bit command word, whatever their values. -/
structure CommandWord where
  op       : Byte
  ttlp     : Bool
  tsp      : Bool
  reserved : BitVec 6
deriving DecidableEq, Repr

end Sys2Proof
end

