-- ==== Sys2Proof/WellFormed.lean ====
section
/-! DEFINITION. Well-formedness: of a command word (spec/30_encoding.md R73), of an instruction, and of a set of
parameters (spec/00_scope.md R5). -/

namespace Sys2Proof

/-- R73 (a), negated: `OP` is one of 0x01..0x07. -/
def CommandWord.opDefined (c : CommandWord) : Bool := decide (1 ≤ c.op.toNat ∧ c.op.toNat ≤ 7)

/-- R73 (b), negated: bits 15..10 are 0. -/
def CommandWord.reservedZero (c : CommandWord) : Bool := decide (c.reserved = 0)

/-- R73 (c), negated: a modifier bit is 1 only when `OP` is PKT_ENCODE. -/
def CommandWord.modifiersLegal (c : CommandWord) : Bool := (!c.ttlp && !c.tsp) || decide (c.op = 0x02)

/-- R73: a legal command word. -/
def CommandWord.wf (c : CommandWord) : Bool := c.opDefined && c.reservedZero && c.modifiersLegal

/-- Every instruction is well formed: no operand is packed into the word (R74), and the two modifier bits of
PKT_ENCODE are legal at both values (R72), so there is nothing for a check to refuse. -/
def Instr.wf : Instr → Bool
  | .crc16 => true
  | .pktEncode _ _ => true
  | .pktDecode => true
  | .addressed => true
  | .alertPriority => true
  | .alertEncode => true
  | .alertDecode => true

/-- R5: legal parameters: an injective `TYPE_CODE` and one of the two values of `MAX_PAYLOAD`. -/
def Params.wf (p : Params) : Bool := p.typeCodes.distinct && (p.maxPayload == 65503 || p.maxPayload == 65535)

end Sys2Proof
end

