-- ==== Sys2Proof/Decode.lean ====
section
/-! DEFINITION. The command decoder, total on every 16-bit word (spec/30_encoding.md R70 to R73), and the encoder,
written from the opcode map's full words (R71). -/

namespace Sys2Proof

/-- R73: why a command word is illegal. The engine reports all three as ILLEGAL_COMMAND. -/
inductive IllegalWord where
  /-- (a) `OP` is 0x00 or in 0x08..0xFF. -/
  | reservedOpcode
  /-- (b) one of bits 15..10 is 1. -/
  | reservedBits
  /-- (c) `TTLP` or `TSP` is 1 while `OP` is not PKT_ENCODE. -/
  | modifierBits
deriving DecidableEq, Repr

/-- R70: bits 7..0 `OP`, bit 8 `TTLP`, bit 9 `TSP`, bits 15..10 reserved. -/
def CommandWord.ofBits (w : Half) : CommandWord :=
  { op := w.extractLsb' 0 8, ttlp := w.getLsbD 8, tsp := w.getLsbD 9, reserved := w.extractLsb' 10 6 }

/-- R71: the command an opcode selects; `none` where the opcode is reserved. -/
def commandOf (op : Byte) (ttlp tsp : Bool) : Option Instr :=
  match op.toNat with
  | 0x01 => some .crc16
  | 0x02 => some (.pktEncode ttlp tsp)
  | 0x03 => some .pktDecode
  | 0x04 => some .addressed
  | 0x05 => some .alertPriority
  | 0x06 => some .alertEncode
  | 0x07 => some .alertDecode
  | _ => none

/-- R71, R73: the command a word selects, or why it is illegal. -/
def decodeFields (c : CommandWord) : Except IllegalWord Instr :=
  match commandOf c.op c.ttlp c.tsp with
  | none => .error .reservedOpcode
  | some i =>
    if c.reservedZero then
      if c.modifiersLegal then .ok i else .error .modifierBits
    else .error .reservedBits

/-- The decoder: `CMD` to a command or a named rejection. -/
def decode (w : Half) : Except IllegalWord Instr := decodeFields (CommandWord.ofBits w)

/-- R71: the word of each command (PKT_ENCODE is `0b000000 TSP TTLP 00000010`). -/
def encode : Instr → Half
  | .crc16 => 0x0001
  | .pktEncode false false => 0x0002
  | .pktEncode true false => 0x0102
  | .pktEncode false true => 0x0202
  | .pktEncode true true => 0x0302
  | .pktDecode => 0x0003
  | .addressed => 0x0004
  | .alertPriority => 0x0005
  | .alertEncode => 0x0006
  | .alertDecode => 0x0007

/-- The command word a row's bits stand for: bits above `nbits` are 0. `CMD` is a field of the request, not bytes in
a memory (10_state.md R21), so there is no byte order to apply. -/
def tableWord (nbits w : Nat) : Half := BitVec.ofNat 16 (w % 2 ^ nbits)

/-- The instruction the decoder reads from a table row's bits. A row wider than the one 16-bit format (R70) is no
command. -/
def decodeTableWord (nbits w : Nat) : Option Instr :=
  if nbits ≤ 16 then
    match decode (tableWord nbits w) with
    | .ok i => some i
    | .error _ => none
  else none

end Sys2Proof
end

