-- ==== Sys2Proof/Machine/State.lean ====
section
/-! DEFINITION. The state of the machine (spec/10_state.md): the requests that are outstanding, the responses
delivered, and the moves the agents are about to make. The engine itself keeps nothing between commands (R26). -/

namespace Sys2Proof.Machine

/-- R21: the fields of a request, captured whole when it is issued (20_memory.md R55). -/
structure Request where
  cmd    : Half
  inp    : Bytes
  aType  : Byte
  aSrc   : Half
  aDst   : Half
  aPri   : Byte
  aTtl   : Byte
  aTs    : Word
  aNode  : Half
  aClass : Byte
  aTone  : Byte
deriving DecidableEq, Repr

/-- R90: the values `STATUS` takes, by name (`Status.code` is the byte; log 13). -/
inductive Status where
  | ok
  | tooShort
  | badSync
  | truncated
  | checksumMismatch
  | oversizedPayload
  | notAnAlert
  | malformedAlertPayload
  | invalidText
  | illegalCommand
deriving DecidableEq, Repr

/-- R22: the fields of a response. `none` is R23's "holds no value", for a field the command did not write; `STATUS`
is written by every command. -/
structure Response where
  status  : Status
  rCrc    : Option Half := none
  out     : Option Bytes := none
  rVer    : Option Byte := none
  rType   : Option Byte := none
  rTkind  : Option Byte := none
  rSrc    : Option Half := none
  rDst    : Option Half := none
  rPri    : Option Byte := none
  rPknown : Option Bool := none
  rTtl    : Option Byte := none
  rTs     : Option Word := none
  rLen    : Option Half := none
  rChk    : Option Half := none
  rBool   : Option Bool := none
  rClass  : Option Byte := none
  rTone   : Option Byte := none
deriving DecidableEq, Repr

/-- R22: the names of the response fields. -/
inductive Field where
  | status | rCrc | out | rVer | rType | rTkind | rSrc | rDst | rPri | rPknown | rTtl | rTs | rLen | rChk | rBool
  | rClass | rTone
deriving DecidableEq, Repr

/-- The value of a response field, at the width R22 gives it. -/
inductive FieldValue where
  | bit (v : Bool)
  | byte (v : Byte)
  | half (v : Half)
  | word (v : Word)
  | bytes (v : Bytes)
deriving DecidableEq, Repr

/-- A command that was issued: its request and the tag the requester knows it by (the label of 95_test_vectors.md's
programs). -/
structure Command where
  tag : Nat
  req : Request
deriving DecidableEq, Repr

/-- R22: the one response of the command with this tag. -/
structure Delivered where
  tag  : Nat
  resp : Response
deriving DecidableEq, Repr

/-- One move of one agent (R20). Which move comes next is data of the state: the spec leaves the interleaving of the
requesters and the engine open (20_memory.md R58, R59), and a claim about every state holds for every interleaving
(log 7). -/
inductive Move where
  /-- a requester issues a request (R20, R21) -/
  | issue (r : Request)
  /-- the engine completes the `k`-th outstanding command (R59: any of them) -/
  | engine (k : Nat)
  /-- the engine is reset (70_reset_and_hazards.md R190, R191) -/
  | reset
  /-- the requester reads a field of the response of command `tag` (R23, 70_reset_and_hazards.md R194) -/
  | read (tag : Nat) (f : Field)
deriving DecidableEq, Repr

/-- The whole machine. -/
structure State where
  /-- the moves to come, first one first; the model's own field (log 7) -/
  agenda      : List Move
  /-- commands issued and neither completed nor abandoned, oldest first (R20, R59) -/
  outstanding : List Command
  /-- the responses delivered since reset, oldest first (R22, 70_reset_and_hazards.md R196) -/
  responses   : List Delivered
  /-- every command a reset abandoned; nothing takes one off the list (70_reset_and_hazards.md R191, R196; log 9) -/
  abandoned   : List Command
  /-- what the requester's last read gave; the model's own field (log 10) -/
  lastRead    : Option FieldValue
  /-- how many commands were issued, the next tag; the model's own field (log 11) -/
  issued      : Nat
  /-- how many `NOW` draws were taken; the model's own field, the argument of `Config.now` (log 6) -/
  nowDraws    : Nat
  /-- how many free choices of a command were made; the model's own field, the argument of `Config.completes` (log 8) -/
  picks       : Nat
deriving DecidableEq, Repr

/-- Why a run stops with a fault. -/
inductive Fault where
  /-- The requester read field `f` of the response to command `tag`, and it holds no value: the command did not write
  it, or its response is not there (R23, R34; 93_implementation_defined.md U15, U17). Raised by the read move only.
  Safe: the spec gives the read no value. -/
  | noValue (tag : Nat) (f : Field)
deriving DecidableEq, Repr

/-- Why a run is refused. -/
inductive Refusal where
  /-- An instruction that has no meaning in the model. No arm raises it. Safe. -/
  | notModelled (mnemonic : String)
  /-- A request whose `IN` is longer than `BUF_CAP` (R24, 60_exceptions.md R173). Raised where a request is issued or
  served. Safe: the spec gives such a request no meaning. -/
  | inputOverCapacity
deriving DecidableEq, Repr

/-- R34, 70_reset_and_hazards.md R190: idle, no command outstanding, no response field with a value. The model's own
fields start empty or at 0 (logs 1, 6 to 11). -/
def State.reset : State :=
  { agenda := [], outstanding := [], responses := [], abandoned := [], lastRead := none, issued := 0, nowDraws := 0,
    picks := 0 }

end Sys2Proof.Machine
end

