-- ==== Sys2Proof/Machine/Flags.lean ====
section
/-! DEFINITION. The engine's status indications (spec/10_state.md R31) and their codes: `STATUS` (30_encoding.md R90),
`R_TKIND` (R81, R91), `R_PKNOWN` (R84), `R_BOOL` (41_packet_codec.md R124), and the demultiplexing by type
(42_alert_codec.md R150). -/

namespace Sys2Proof.Machine

/-- R90: the byte of each status. -/
def Status.code : Status → Byte
  | .ok => 0x00
  | .tooShort => 0x01
  | .badSync => 0x02
  | .truncated => 0x03
  | .checksumMismatch => 0x04
  | .oversizedPayload => 0x05
  | .notAnAlert => 0x06
  | .malformedAlertPayload => 0x07
  | .invalidText => 0x08
  | .illegalCommand => 0xFF

/-- R79: the name index. -/
def nameIndex : PacketType → Byte
  | .beacon => 0
  | .textMessage => 1
  | .voiceStart => 2
  | .voiceData => 3
  | .voiceEnd => 4
  | .alert => 5
  | .ack => 6
  | .fileChunk => 7
  | .emergencyBroadcast => 8

/-- R79: the nine names, in name-index order. -/
def packetTypes : List PacketType :=
  [.beacon, .textMessage, .voiceStart, .voiceData, .voiceEnd, .alert, .ack, .fileChunk, .emergencyBroadcast]

/-- R81: `tkind(b)`, the name whose code is `b`; `none` is UNKNOWN. -/
def tkind (t : TypeCodes) (b : Byte) : Option PacketType := packetTypes.find? (fun n => t.code n == b)

/-- R91: `R_TKIND`, the name index, or 0xFF for an unknown type. -/
def tkindByte (t : TypeCodes) (b : Byte) : Byte :=
  match tkind t b with
  | some n => nameIndex n
  | none => 0xFF

/-- R84: `pknown(p)`: `p` is one of INFO 0, NORMAL 1, URGENT 2, EMERGENCY 9. -/
def pknown (p : Byte) : Bool := p == 0 || p == 1 || p == 2 || p == 9

/-- R82: the broadcast destination. -/
def broadcast : Half := 0xFFFF

/-- R124: `is_addressed_to`. -/
def addressedTo (dst node : Half) : Bool := dst == node || dst == broadcast

/-- R150: how a requester may read the payload of a decoded packet. -/
inductive PayloadKind where
  /-- an AlertPayload -/
  | alert
  /-- opaque bytes of a named type -/
  | generic
  /-- opaque bytes of an unknown type -/
  | unknown
deriving DecidableEq, Repr

/-- R150: the payload kind by `R_TKIND`: 5 is ALERT, 0xFF unknown, any other name index generic. -/
def payloadKind (rTkind : Byte) : PayloadKind :=
  if rTkind = nameIndex .alert then .alert else if rTkind = 0xFF then .unknown else .generic

end Sys2Proof.Machine
end

