-- ==== Sys2Proof/Machine/Operands.lean ====
section
/-! DEFINITION. The operand forms: the byte spaces and their slices (spec/00_scope.md R8 to R10), big-endian fields
(R9, 20_memory.md R51), the frame header written and read (30_encoding.md R93, R94), the AlertPayload (42_alert_codec.md
R140), and the capacity of `IN` (10_state.md R24). -/

namespace Sys2Proof.Machine

/-- R8: `zeros(n)`. -/
def zeros (n : Nat) : Bytes := List.replicate n 0

/-- R8: `b[i:j]`. -/
def slice (b : Bytes) (i j : Nat) : Bytes := (b.drop i).take (j - i)

/-- R9: `be16(v)`, most significant byte first. -/
def be16 (v : Half) : Bytes := [v.extractLsb' 8 8, v.extractLsb' 0 8]

/-- R9: `be32(v)`, most significant byte first. -/
def be32 (v : Word) : Bytes := [v.extractLsb' 24 8, v.extractLsb' 16 8, v.extractLsb' 8 8, v.extractLsb' 0 8]

/-- R9: `rd16`, of the bytes at `i` and `i + 1`. -/
def rd16 (hi lo : Byte) : Half := hi ++ lo

/-- R9: `rd32`, of the four bytes at `i` to `i + 3`. -/
def rd32 (b3 b2 b1 b0 : Byte) : Word := (b3 ++ b2 ++ b1 ++ b0 : BitVec 32)

/-- R76: the size of the frame header. -/
def headerSize : Nat := 32

/-- R77: the sync marker, ASCII "ROAM" (log 16). -/
def syncMarker : Bytes := [0x52, 0x4F, 0x41, 0x4D]

/-- R78: the protocol version written by an encode. -/
def protocolVersion : Byte := 1

/-- R83: the hop budget of a packet whose request supplies none. -/
def defaultTtl : Byte := 5

/-- R93: `hdr(t, s, d, p, ttl, ts, n, c)`, the 32-byte header. -/
def hdr (t : Byte) (s d : Half) (p ttl : Byte) (ts : Word) (n c : Half) : Bytes :=
  syncMarker ++ [protocolVersion] ++ [t] ++ be16 s ++ be16 d ++ [p] ++ [ttl] ++ be32 ts ++ be16 n ++ be16 c ++ zeros 12

/-- R94: the header fields a decode reads. -/
structure HeaderFields where
  sync : Bytes
  ver  : Byte
  type : Byte
  src  : Half
  dst  : Half
  pri  : Byte
  ttl  : Byte
  ts   : Word
  len  : Half
  chk  : Half
deriving DecidableEq, Repr

/-- R94: the header fields of `b`, read only where 32 bytes are there (20_memory.md R50: no read past the end). -/
def headerFields (b : Bytes) : Option HeaderFields :=
  if h : 32 ≤ b.length then
    some
      { sync := slice b 0 4
        ver := b[4]
        type := b[5]
        src := rd16 b[6] b[7]
        dst := rd16 b[8] b[9]
        pri := b[10]
        ttl := b[11]
        ts := rd32 b[12] b[13] b[14] b[15]
        len := rd16 b[16] b[17]
        chk := rd16 b[18] b[19] }
  else none

/-- R94: `zhdr`, the received header with the checksum field zeroed. -/
def zeroedHeader (b : Bytes) : Bytes := slice b 0 18 ++ [0x00, 0x00] ++ slice b 20 32

/-- R88: the size of the AlertPayload's message field. -/
def messageLength : Nat := 256

/-- R88: the size of an AlertPayload. -/
def alertLength : Nat := 258

/-- R140: `msg256(m)`, cut at byte 256 whatever the bytes are (R143), or zero-padded to 256. -/
def msg256 (m : Bytes) : Bytes :=
  if messageLength ≤ m.length then m.take messageLength else m ++ zeros (messageLength - m.length)

/-- R140: `alert_payload(cl, tn, m)`. -/
def alertPayload (cl tn : Byte) (m : Bytes) : Bytes := [cl] ++ [tn] ++ msg256 m

/-- R24: is a byte sequence of length `n` within `BUF_CAP`? (Up to R24's least capacity it is, whatever `BUF_CAP`
is.) -/
def withinCapacity (n : Nat) : Bool :=
  decide (n ≤ Config.leastCap) ||
    match Config.bufCap with
    | none => true
    | some cap => decide (n ≤ cap)

end Sys2Proof.Machine
end

