-- ==== Sys2Proof/Machine/Ops.lean ====
section
/-! DEFINITION. The shared operations of the machine: completing a command (spec/00_scope.md R11), drawing `NOW`
(10_state.md R27), issuing, resetting and reading (10_state.md R20, R23; 70_reset_and_hazards.md R190, R191), and
the engine's turn. Errors are results, not traps (60_exceptions.md R170, R176): raising one is `Response.failed`, and there
is no trap to return from (R177). -/

namespace Sys2Proof.Machine

/-- R11: `raise <Error>`: `STATUS` is the error's code and no other field is written. -/
def Response.failed (e : Status) : Response := { status := e }

/-- R22, R23: the value of a response field; `none` where it holds no value. -/
def Response.read (r : Response) : Field → Option FieldValue
  | .status => some (.byte r.status.code)
  | .rCrc => r.rCrc.map .half
  | .out => r.out.map .bytes
  | .rVer => r.rVer.map .byte
  | .rType => r.rType.map .byte
  | .rTkind => r.rTkind.map .byte
  | .rSrc => r.rSrc.map .half
  | .rDst => r.rDst.map .half
  | .rPri => r.rPri.map .byte
  | .rPknown => r.rPknown.map .bit
  | .rTtl => r.rTtl.map .byte
  | .rTs => r.rTs.map .word
  | .rLen => r.rLen.map .half
  | .rChk => r.rChk.map .half
  | .rBool => r.rBool.map .bit
  | .rClass => r.rClass.map .byte
  | .rTone => r.rTone.map .byte

/-- The response of command `tag`, where it has been delivered. -/
def State.responseOf (s : State) (tag : Nat) : Option Response :=
  (s.responses.find? (fun d => d.tag == tag)).map (·.resp)

/-- R20, R196: the command being executed, the first outstanding one, ends with `resp`. -/
def State.deliver (s : State) (resp : Response) : State :=
  match s.outstanding with
  | [] => s
  | c :: cs => { s with outstanding := cs, responses := s.responses ++ [⟨c.tag, resp⟩] }

/-- R27: one draw of `NOW` is taken. -/
def State.drawNow (s : State) : State := { s with nowDraws := s.nowDraws + 1 }

/-- Runs `k` on the command being executed. With nothing outstanding the engine stays idle (log 11); a request over
capacity has no meaning (R173, log 4). -/
def withCommand (s : State) (k : Request → State) : Host.Outcome State Fault Refusal :=
  match s.outstanding with
  | [] => .next s
  | c :: _ => if withinCapacity c.req.inp.length then .next (k c.req) else .refused .inputOverCapacity

/-- R25: a command whose response is a function of its request. -/
def execute (f : Request → Response) (s : State) : Host.Outcome State Fault Refusal :=
  withCommand s fun r => s.deliver (f r)

/-- R25, R27: a command whose response may also depend on its one `NOW` draw, taken where `draws` says it reads it. -/
def executeNow (draws : Request → Bool) (f : Word → Request → Response) (s : State) :
    Host.Outcome State Fault Refusal :=
  withCommand s fun r =>
    (if draws r then s.drawNow else s).deliver (f (Config.now s.nowDraws) r)

/-- R73, 60_exceptions.md R172: an illegal command word completes with ILLEGAL_COMMAND, reads no operand and no `NOW`. -/
def illegalCommand (s : State) : Host.Outcome State Fault Refusal :=
  execute (fun _ => .failed .illegalCommand) s

/-- R20, R55, 70_reset_and_hazards.md R193: the request is captured whole, as a new command whatever was
abandoned before (70_reset_and_hazards.md R191). A request over capacity is refused (R173). -/
def issue (r : Request) (s : State) : Host.Outcome State Fault Refusal :=
  if withinCapacity r.inp.length then
    .next { s with
      outstanding := s.outstanding ++ [⟨s.issued, r⟩]
      issued := s.issued + 1 }
  else .refused .inputOverCapacity

/-- 70_reset_and_hazards.md R190, R191: the engine is idle, no response field holds a value, and the commands in
progress are abandoned. -/
def resetEngine (s : State) : State :=
  { s with outstanding := [], responses := [], abandoned := s.abandoned ++ s.outstanding }

/-- R23, 70_reset_and_hazards.md R194: the requester reads a response field; a field that holds no value is its fault. -/
def readField (tag : Nat) (f : Field) (s : State) : Host.Outcome State Fault Refusal :=
  match (s.responseOf tag).bind (·.read f) with
  | some v => .next { s with lastRead := some v }
  | none => .fault (.noValue tag f)

/-- R59: the engine turns to the `k`-th outstanding command; `none` where there is no such command. -/
def State.bringFront (s : State) (k : Nat) : Option State :=
  match s.outstanding[k]? with
  | none => none
  | some c => some { s with outstanding := c :: s.outstanding.eraseIdx k }

/-- The engine completes the first outstanding command: its word is decoded and `run` executes it, or it is illegal. -/
def serve (run : Instr → State → Host.Outcome State Fault Refusal) (s : State) : Host.Outcome State Fault Refusal :=
  match s.outstanding with
  | [] => .next s
  | c :: _ =>
    match decode c.req.cmd with
    | .ok i => run i s
    | .error _ => illegalCommand s

/-- The engine's turn at the `k`-th outstanding command; with no such command it stays idle (log 11). -/
def engineTurn (run : Instr → State → Host.Outcome State Fault Refusal) (k : Nat) (s : State) :
    Host.Outcome State Fault Refusal :=
  match s.bringFront k with
  | none => .next s
  | some t => serve run t

/-- R59: with no move on the agenda the engine completes one outstanding command, whichever the free value says
(log 8). With at most one outstanding there is no choice to make. -/
def engineFree (run : Instr → State → Host.Outcome State Fault Refusal) (s : State) :
    Host.Outcome State Fault Refusal :=
  if s.outstanding.length ≤ 1 then engineTurn run 0 s
  else engineTurn run (Config.completes s.picks % s.outstanding.length) { s with picks := s.picks + 1 }

/-- One move of the agenda. -/
def takeMove (run : Instr → State → Host.Outcome State Fault Refusal) (m : Move) (s : State) :
    Host.Outcome State Fault Refusal :=
  match m with
  | .issue r => issue r s
  | .engine k => engineTurn run k s
  | .reset => .next (resetEngine s)
  | .read tag f => readField tag f s

/-- A request with this command word and every operand field 0 or empty (log 1). -/
def Request.blank (cmd : Half) : Request :=
  { cmd := cmd, inp := [], aType := 0, aSrc := 0, aDst := 0, aPri := 0, aTtl := 0, aTs := 0, aNode := 0, aClass := 0,
    aTone := 0 }

/-- Log 1: the next move is the engine's, at the first outstanding command, whose word becomes `cmd`; where none is
outstanding, a request with blank operands is. -/
def State.withCommandWord (s : State) (cmd : Half) : State :=
  match s.outstanding with
  | [] => { s with agenda := .engine 0 :: s.agenda, outstanding := [⟨s.issued, .blank cmd⟩], issued := s.issued + 1 }
  | c :: cs =>
    { s with agenda := .engine 0 :: s.agenda, outstanding := { c with req := { c.req with cmd := cmd } } :: cs }

end Sys2Proof.Machine
end

