-- ==== Sys2Proof/Machine/Checksum.lean ====
section
/-! DEFINITION. The Checksum Engine (spec/40_checksum.md): the CRC function and the command CRC16. -/

namespace Sys2Proof.Machine

/-- R100: the polynomial. -/
def crcPoly : Half := 0x1021

/-- R100: the initial value. -/
def crcInit : Half := 0xFFFF

/-- R101: one round; bit 15 is tested before the shift, and 16 bits are kept. -/
def crcRound (acc : Half) : Half :=
  if acc.getLsbD 15 then (acc <<< 1) ^^^ crcPoly else acc <<< 1

/-- R101: `n` rounds. -/
def crcRounds : Nat → Half → Half
  | 0, acc => acc
  | n + 1, acc => crcRounds n (crcRound acc)

/-- R101: the byte into the high byte of `ACC`, then 8 rounds. -/
def crcByte (acc : Half) (b : Byte) : Half := crcRounds 8 (acc ^^^ (b.setWidth 16 <<< 8))

/-- R101, R103: the accumulator after the bytes of `data`, in index order, from `acc` (`ACC` of 10_state.md R28). -/
def crcFrom (acc : Half) (data : Bytes) : Half := data.foldl crcByte acc

/-- R101: `crc16(data)`. -/
def crc16 (data : Bytes) : Half := crcFrom crcInit data

/-- R102: the response of CRC16. -/
def crc16Response (r : Request) : Response := { status := .ok, rCrc := some (crc16 r.inp) }

/-- CRC16 (R102). -/
def execCrc16 (s : State) : Host.Outcome State Fault Refusal := execute crc16Response s

end Sys2Proof.Machine
end

