-- ==== Sys2Proof/Machine/Packet.lean ====
section
/-! DEFINITION. The Packet Codec (spec/41_packet_codec.md): PKT_ENCODE, PKT_DECODE and ADDRESSED. -/

namespace Sys2Proof.Machine

/-- R112: the checksum of a packet, over the header with the checksum field 0 and the payload. -/
def frameChecksum (t : Byte) (s d : Half) (p ttl : Byte) (ts : Word) (payload : Bytes) : Half :=
  crc16 (hdr t s d p ttl ts (BitVec.ofNat 16 payload.length) 0 ++ payload)

/-- R112: the frame of a packet, the header with the real checksum and the payload. -/
def frame (t : Byte) (s d : Half) (p ttl : Byte) (ts : Word) (payload : Bytes) : Bytes :=
  hdr t s d p ttl ts (BitVec.ofNat 16 payload.length) (frameChecksum t s d p ttl ts payload) ++ payload

/-- R112: the response of PKT_ENCODE. -/
def pktEncodeResponse (p : Params) (ttlp tsp : Bool) (now : Word) (r : Request) : Response :=
  if p.maxPayload < r.inp.length then .failed .oversizedPayload
  else
    let ttl := if ttlp then r.aTtl else defaultTtl
    let ts := if tsp then r.aTs else now
    { status := .ok
      out := some (frame r.aType r.aSrc r.aDst r.aPri ttl ts r.inp)
      rTs := some ts
      rLen := some (BitVec.ofNat 16 r.inp.length)
      rChk := some (frameChecksum r.aType r.aSrc r.aDst r.aPri ttl ts r.inp) }

/-- R112: PKT_ENCODE reads `NOW` when `TSP` = 0 and the payload is not oversized. -/
def pktEncodeDraws (p : Params) (tsp : Bool) (r : Request) : Bool := !tsp && decide (r.inp.length ≤ p.maxPayload)

/-- PKT_ENCODE (R112), with the modifier bits of its word. -/
def execPktEncode (ttlp tsp : Bool) (s : State) : Host.Outcome State Fault Refusal :=
  executeNow (pktEncodeDraws Config.params tsp) (pktEncodeResponse Config.params ttlp tsp) s

/-- R117: the checksum a decode recomputes: the received header with the checksum field zeroed, and exactly the
`n` payload bytes. -/
def receivedChecksum (b : Bytes) (n : Nat) : Half := crc16 (zeroedHeader b ++ slice b 32 (32 + n))

/-- R115, R116: the response of PKT_DECODE. Lengths are natural numbers, so 32 + n does not wrap (00_scope.md R8). -/
def pktDecodeResponse (p : Params) (r : Request) : Response :=
  match headerFields r.inp with
  | none => .failed .tooShort
  | some h =>
    if h.sync ≠ syncMarker then .failed .badSync
    else if r.inp.length < 32 + h.len.toNat then .failed .truncated
    else if receivedChecksum r.inp h.len.toNat ≠ h.chk then .failed .checksumMismatch
    else
      { status := .ok
        rVer := some h.ver
        rType := some h.type
        rTkind := some (tkindByte p.typeCodes h.type)
        rSrc := some h.src
        rDst := some h.dst
        rPri := some h.pri
        rPknown := some (pknown h.pri)
        rTtl := some h.ttl
        rTs := some h.ts
        rLen := some h.len
        rChk := some h.chk
        out := some (slice r.inp 32 (32 + h.len.toNat)) }

/-- PKT_DECODE (R115). -/
def execPktDecode (s : State) : Host.Outcome State Fault Refusal := execute (pktDecodeResponse Config.params) s

/-- R124: the response of ADDRESSED. -/
def addressedResponse (r : Request) : Response := { status := .ok, rBool := some (addressedTo r.aDst r.aNode) }

/-- ADDRESSED (R124). -/
def execAddressed (s : State) : Host.Outcome State Fault Refusal := execute addressedResponse s

end Sys2Proof.Machine
end

