-- ==== Sys2Proof/Machine/Alert.lean ====
section
/-! DEFINITION. The Alert Codec (spec/42_alert_codec.md): ALERT_PRIORITY, ALERT_ENCODE, ALERT_DECODE, the text rules they
use, and the requester-side sequence FRAME_ALERT (30_encoding.md R75, R150). -/

namespace Sys2Proof.Machine

/-- R141: `alert_prio(cl)`: 9 is EMERGENCY, 2 URGENT, every other class NORMAL. -/
def alertPrio (cl : Byte) : Byte := if cl = 9 then 9 else if cl = 2 then 2 else 1

/-- R141: the response of ALERT_PRIORITY. -/
def alertPriorityResponse (r : Request) : Response := { status := .ok, rPri := some (alertPrio r.aClass) }

/-- ALERT_PRIORITY (R141). -/
def execAlertPriority (s : State) : Host.Outcome State Fault Refusal := execute alertPriorityResponse s

/-- R142: the response of ALERT_ENCODE. -/
def alertEncodeResponse (p : Params) (now : Word) (r : Request) : Response :=
  let pl := alertPayload r.aClass r.aTone r.inp
  let pri := alertPrio r.aClass
  let type := p.typeCodes.code .alert
  { status := .ok
    out := some (frame type r.aSrc r.aDst pri defaultTtl now pl)
    rPri := some pri
    rTs := some now
    rLen := some (BitVec.ofNat 16 pl.length)
    rChk := some (frameChecksum type r.aSrc r.aDst pri defaultTtl now pl) }

/-- ALERT_ENCODE (R142); it always reads `NOW`. -/
def execAlertEncode (s : State) : Host.Outcome State Fault Refusal :=
  executeNow (fun _ => true) (alertEncodeResponse Config.params) s

/-- R148: `rstrip0(b)`, without the longest run of 0x00 at the end. -/
def rstrip0 : Bytes → Bytes
  | [] => []
  | b :: bs =>
    match rstrip0 bs with
    | [] => if b = 0 then [] else [b]
    | r :: rs => b :: r :: rs

/-- An inclusive range of byte values. -/
structure ByteRange where
  lo : Nat
  hi : Nat
deriving DecidableEq, Repr

/-- The byte lies in the range. -/
def ByteRange.has (g : ByteRange) (b : Byte) : Bool := decide (g.lo ≤ b.toNat ∧ b.toNat ≤ g.hi)

/-- R149's table (log 16): each row the ranges of the bytes of one well-formed sequence, first byte first. -/
def utf8Table : List (ByteRange × List ByteRange) :=
  [ (⟨0x00, 0x7F⟩, []),
    (⟨0xC2, 0xDF⟩, [⟨0x80, 0xBF⟩]),
    (⟨0xE0, 0xE0⟩, [⟨0xA0, 0xBF⟩, ⟨0x80, 0xBF⟩]),
    (⟨0xE1, 0xEC⟩, [⟨0x80, 0xBF⟩, ⟨0x80, 0xBF⟩]),
    (⟨0xED, 0xED⟩, [⟨0x80, 0x9F⟩, ⟨0x80, 0xBF⟩]),
    (⟨0xEE, 0xEF⟩, [⟨0x80, 0xBF⟩, ⟨0x80, 0xBF⟩]),
    (⟨0xF0, 0xF0⟩, [⟨0x90, 0xBF⟩, ⟨0x80, 0xBF⟩, ⟨0x80, 0xBF⟩]),
    (⟨0xF1, 0xF3⟩, [⟨0x80, 0xBF⟩, ⟨0x80, 0xBF⟩, ⟨0x80, 0xBF⟩]),
    (⟨0xF4, 0xF4⟩, [⟨0x80, 0x8F⟩, ⟨0x80, 0xBF⟩, ⟨0x80, 0xBF⟩]) ]

/-- R149: the ranges that must follow first byte `b`; `none` where `b` begins no sequence. -/
def utf8Tail (b : Byte) : Option (List ByteRange) := (utf8Table.find? (fun row => row.1.has b)).map (·.2)

/-- R149: the check, with `expected` the ranges still owed by the sequence begun. -/
def utf8Scan : List ByteRange → Bytes → Bool
  | [], [] => true
  | _ :: _, [] => false
  | [], b :: bs =>
    match utf8Tail b with
    | some tail => utf8Scan tail bs
    | none => false
  | g :: gs, b :: bs => g.has b && utf8Scan gs bs

/-- R149: `utf8_valid(m)`. -/
def utf8Valid (m : Bytes) : Bool := utf8Scan [] m

/-- R147: the response of ALERT_DECODE. After the length check (258) offsets 0 and 1 are the class and the tone and the rest is the
message field. -/
def alertDecodeResponse (p : Params) (r : Request) : Response :=
  if r.aType ≠ p.typeCodes.code .alert then .failed .notAnAlert
  else if r.inp.length ≠ alertLength then .failed .malformedAlertPayload
  else
    match r.inp with
    | cl :: tn :: field =>
      if utf8Valid (rstrip0 field) then
        { status := .ok, rClass := some cl, rTone := some tn, out := some (rstrip0 field) }
      else .failed .invalidText
    | _ => .failed .malformedAlertPayload

/-- ALERT_DECODE (R147). -/
def execAlertDecode (s : State) : Host.Outcome State Fault Refusal := execute (alertDecodeResponse Config.params) s

/-- 30_encoding.md R75, R150: the requester-side sequence FRAME_ALERT: decode the frame, and where it is an ALERT packet
interpret its payload. The second response is there only where the second command is issued. -/
def frameAlert (p : Params) (input : Bytes) : Response × Option Response :=
  let first := pktDecodeResponse p { Request.blank 0x0003 with inp := input }
  match first.rTkind, first.rType, first.out with
  | some k, some t, some payload =>
    if payloadKind k = .alert then
      (first, some (alertDecodeResponse p { Request.blank 0x0007 with aType := t, inp := payload }))
    else (first, none)
  | _, _, _ => (first, none)

end Sys2Proof.Machine
end

