-- ==== Sys2Proof/Machine/Dispatch.lean ====
section
/-! DEFINITION. One arm per command (spec/30_encoding.md R71). -/

namespace Sys2Proof.Machine

def exec (i : Instr) (s : State) : Host.Outcome State Fault Refusal :=
  match i with
  | .crc16 => Sys2Proof.Machine.execCrc16 s
  | .pktEncode ttlp tsp => Sys2Proof.Machine.execPktEncode ttlp tsp s
  | .pktDecode => Sys2Proof.Machine.execPktDecode s
  | .addressed => Sys2Proof.Machine.execAddressed s
  | .alertPriority => Sys2Proof.Machine.execAlertPriority s
  | .alertEncode => Sys2Proof.Machine.execAlertEncode s
  | .alertDecode => Sys2Proof.Machine.execAlertDecode s

end Sys2Proof.Machine
end

