-- ==== Sys2Proof/Machine/Step.lean ====
section
/-! DEFINITION. One step: the next move of the agenda, or, with none, the engine's turn (spec/10_state.md R20,
20_memory.md R59). -/

namespace Sys2Proof.Machine

/-- One step of the machine. -/
def step (s : State) : Host.Outcome State Fault Refusal :=
  match s.agenda with
  | [] => engineFree exec s
  | m :: ms => takeMove exec m { s with agenda := ms }

/-- `s` with a table row's word as the command the very next step runs (log 1). The engine fetches nothing
(10_state.md R30): a command word comes with its request. -/
def State.withFetchWord (s : State) (nbits w : Nat) : State := s.withCommandWord (tableWord nbits w)

end Sys2Proof.Machine
end

