-- ==== Sys2Proof/Safety.lean ====
section
/-! DEFINITION. The terms claims use: which request fields a command reads and which response fields it writes
(spec/10_state.md R21, R22), the invariant every step keeps, and a run's normal end (70_reset_and_hazards.md R196). -/

namespace Sys2Proof.Machine

/-- R21's "read by" column: the two requests agree on every field the command reads. `A_TTL` is read only when
`TTLP` = 1 and `A_TS` only when `TSP` = 1. -/
def agreeOnOperands : Instr → Request → Request → Prop
  | .crc16, r, q => r.inp = q.inp
  | .pktEncode ttlp tsp, r, q =>
    r.inp = q.inp ∧ r.aType = q.aType ∧ r.aSrc = q.aSrc ∧ r.aDst = q.aDst ∧ r.aPri = q.aPri ∧
      (ttlp = true → r.aTtl = q.aTtl) ∧ (tsp = true → r.aTs = q.aTs)
  | .pktDecode, r, q => r.inp = q.inp
  | .addressed, r, q => r.aDst = q.aDst ∧ r.aNode = q.aNode
  | .alertPriority, r, q => r.aClass = q.aClass
  | .alertEncode, r, q =>
    r.inp = q.inp ∧ r.aSrc = q.aSrc ∧ r.aDst = q.aDst ∧ r.aClass = q.aClass ∧ r.aTone = q.aTone
  | .alertDecode, r, q => r.inp = q.inp ∧ r.aType = q.aType

/-- R22's "written by (on OK)" column, without `STATUS`, which every command writes. -/
def writtenOnOk : Instr → List Field
  | .crc16 => [.rCrc]
  | .pktEncode _ _ => [.out, .rTs, .rLen, .rChk]
  | .pktDecode =>
    [.out, .rVer, .rType, .rTkind, .rSrc, .rDst, .rPri, .rPknown, .rTtl, .rTs, .rLen, .rChk]
  | .addressed => [.rBool]
  | .alertPriority => [.rPri]
  | .alertEncode => [.out, .rPri, .rTs, .rLen, .rChk]
  | .alertDecode => [.out, .rClass, .rTone]

/-- The field holds a value. -/
def Response.has (r : Response) (f : Field) : Bool := (r.read f).isSome

/-- R22, R23: on OK exactly `STATUS` and the fields of command `i`'s row hold a value; on a failure `STATUS` alone. -/
def Response.writesOnly (i : Instr) (r : Response) : Prop :=
  ∀ f : Field, r.has f = true ↔ f = .status ∨ (r.status = .ok ∧ f ∈ writtenOnOk i)

/-- 30_encoding.md R90's "raised by" column: the statuses command `i` may report. -/
def mayReport : Instr → List Status
  | .crc16 => [.ok]
  | .pktEncode _ _ => [.ok, .oversizedPayload]
  | .pktDecode => [.ok, .tooShort, .badSync, .truncated, .checksumMismatch]
  | .addressed => [.ok]
  | .alertPriority => [.ok]
  | .alertEncode => [.ok]
  | .alertDecode => [.ok, .notAnAlert, .malformedAlertPayload, .invalidText]

/-- R27: command `i` reads `NOW` for this request. -/
def readsNow : Instr → Request → Bool
  | .crc16, _ => false
  | .pktEncode _ tsp, r => !tsp && decide (r.inp.length ≤ Config.maxPayload)
  | .pktDecode, _ => false
  | .addressed, _ => false
  | .alertPriority, _ => false
  | .alertEncode, _ => true
  | .alertDecode, _ => false

/-- A response the engine can give: some command's fields, and an `OUT` within `BUF_CAP` (R24). -/
def Response.possible (r : Response) : Prop :=
  (∃ i : Instr, r.writesOnly i) ∧ ∀ b, r.out = some b → withinCapacity b.length = true

/-- The tags in use. -/
def State.tags (s : State) : List Nat :=
  s.outstanding.map (·.tag) ++ s.responses.map (·.tag) ++ s.abandoned.map (·.tag)

/-- What every run keeps: each command issued has at most one place and one response (R20, R22), requests are within
capacity (R24, R173), and every response is one the engine can give (R22, R23). -/
structure State.Inv (s : State) : Prop where
  tagsIssued    : ∀ t ∈ s.tags, t < s.issued
  tagsDistinct  : s.tags.Nodup
  requestsFit   : ∀ c ∈ s.outstanding, withinCapacity c.req.inp.length = true
  responsesPossible : ∀ d ∈ s.responses, d.resp.possible

/-- The state in which the command being executed, `c`, has ended with `resp`: it is outstanding no longer, and its one
response is delivered. Everything else is as in `s`. -/
def State.answer (s : State) (c : Command) (cs : List Command) (resp : Response) : State :=
  { s with outstanding := cs, responses := s.responses ++ [⟨c.tag, resp⟩] }

/-- The command being executed in `s` has this request, and the request is within capacity (R24). -/
def State.Serves (s : State) (r : Request) : Prop :=
  (∃ tag cs, s.outstanding = ⟨tag, r⟩ :: cs) ∧ withinCapacity r.inp.length = true

/-- Executing command `i` in `s` ends the command being executed with response `resp`. -/
def Answers (i : Instr) (s : State) (resp : Response) : Prop :=
  ∃ c cs t, s.outstanding = c :: cs ∧ exec i s = .next t ∧ t.responses = s.responses ++ [⟨c.tag, resp⟩]

/-- The byte at offset `k` XOR (1 << `j`) (95_test_vectors.md's "flip k.b"). -/
def flipBit (b : Bytes) (k j : Nat) : Bytes := b.modify k (· ^^^ (1#8 <<< j))

/-- 70_reset_and_hazards.md R191: the command with this tag was issued, and is neither outstanding nor answered. -/
def State.lost (s : State) (tag : Nat) : Prop :=
  tag < s.issued ∧ tag ∉ s.outstanding.map (·.tag) ∧ tag ∉ s.responses.map (·.tag)

/-- `k` steps, stopping at the first fault or refusal. -/
def runSteps : Nat → State → Host.Outcome State Fault Refusal
  | 0, s => .next s
  | k + 1, s =>
    match step s with
    | .next t => runSteps k t
    | .fault r => .fault r
    | .refused r => .refused r

/-- 70_reset_and_hazards.md R190: the engine is idle: no command in progress. -/
def State.idle (s : State) : Bool := s.outstanding.isEmpty

/-- 70_reset_and_hazards.md R196: the run has ended normally: no move is to come, no command is outstanding, and no reset has
abandoned one (R191: such a run has no normal end, whatever is issued later). A refused run and a faulting read do not reach
a state. -/
def State.endsNormally (s : State) : Bool := s.agenda.isEmpty && s.outstanding.isEmpty && s.abandoned.isEmpty

/-- R149's table in words: `q` is one well-formed UTF-8 sequence. -/
def utf8Sequence : Bytes → Prop
  | [a] => a ≤ 0x7F
  | [a, b] => 0xC2 ≤ a ∧ a ≤ 0xDF ∧ 0x80 ≤ b ∧ b ≤ 0xBF
  | [a, b, c] =>
    0x80 ≤ c ∧ c ≤ 0xBF ∧
      (a = 0xE0 ∧ 0xA0 ≤ b ∧ b ≤ 0xBF ∨ 0xE1 ≤ a ∧ a ≤ 0xEC ∧ 0x80 ≤ b ∧ b ≤ 0xBF ∨
        a = 0xED ∧ 0x80 ≤ b ∧ b ≤ 0x9F ∨ 0xEE ≤ a ∧ a ≤ 0xEF ∧ 0x80 ≤ b ∧ b ≤ 0xBF)
  | [a, b, c, d] =>
    0x80 ≤ c ∧ c ≤ 0xBF ∧ 0x80 ≤ d ∧ d ≤ 0xBF ∧
      (a = 0xF0 ∧ 0x90 ≤ b ∧ b ≤ 0xBF ∨ 0xF1 ≤ a ∧ a ≤ 0xF3 ∧ 0x80 ≤ b ∧ b ≤ 0xBF ∨
        a = 0xF4 ∧ 0x80 ≤ b ∧ b ≤ 0x8F)
  | _ => False

end Sys2Proof.Machine
end

