-- ==== Sys2Proof/Certificates/Slice0/Obligations.lean ====
section
/-! DEFINITION. The statements for the provers, each from the numbered rules of spec/ that its docstring names. -/

open Sys2Proof Sys2Proof.Machine

/-! ## Encoding (spec/30_encoding.md, Part A) -/

/-- Words written out from R71's full patterns and R73's reserved cases (95_test_vectors.md 2.8) decode as the spec says. -/
def Obligations.CommandWordsDecodeAsListed : Prop :=
  decode 0b0000000000000001 = .ok .crc16 ∧
  decode 0b0000000000000010 = .ok (.pktEncode false false) ∧
  decode 0b0000000100000010 = .ok (.pktEncode true false) ∧
  decode 0b0000001000000010 = .ok (.pktEncode false true) ∧
  decode 0b0000001100000010 = .ok (.pktEncode true true) ∧
  decode 0b0000000000000011 = .ok .pktDecode ∧
  decode 0b0000000000000100 = .ok .addressed ∧
  decode 0b0000000000000101 = .ok .alertPriority ∧
  decode 0b0000000000000110 = .ok .alertEncode ∧
  decode 0b0000000000000111 = .ok .alertDecode ∧
  decode 0x0000 = .error .reservedOpcode ∧
  decode 0x0008 = .error .reservedOpcode ∧
  decode 0x0401 = .error .reservedBits ∧
  decode 0x0103 = .error .modifierBits

/-- Decode and encode agree both ways: no bit of a legal word is dropped. -/
def Obligations.DecodeAndEncodeAgree : Prop :=
  (∀ i : Instr, decode (encode i) = .ok i) ∧ ∀ (w : Half) (i : Instr), decode w = .ok i → encode i = w

/-- R71: the match and mask of every command (the opcode table's), and the modifier bits of PKT_ENCODE. -/
def Obligations.LegalWordsByMaskAndMatch : Prop :=
  ∀ w : Half,
    (decode w = .ok .crc16 ↔ w &&& 0xFFFF = 0x0001) ∧
    (∀ ttlp tsp : Bool, decode w = .ok (.pktEncode ttlp tsp) ↔
      w &&& 0xFCFF = 0x0002 ∧ w.getLsbD 8 = ttlp ∧ w.getLsbD 9 = tsp) ∧
    (decode w = .ok .pktDecode ↔ w &&& 0xFFFF = 0x0003) ∧
    (decode w = .ok .addressed ↔ w &&& 0xFFFF = 0x0004) ∧
    (decode w = .ok .alertPriority ↔ w &&& 0xFFFF = 0x0005) ∧
    (decode w = .ok .alertEncode ↔ w &&& 0xFFFF = 0x0006) ∧
    (decode w = .ok .alertDecode ↔ w &&& 0xFFFF = 0x0007)

/-- R73: exactly the words of its formula are illegal, and the engine's turn at such a command completes it with
ILLEGAL_COMMAND: no other field, no `NOW` draw, nothing else changed (R172). The turn is an engine move that names the
command, or, with no move on the agenda, the turn at the one command outstanding or at the one of several that the free
value picks (log 8). -/
def Obligations.IllegalWordsComplete : Prop :=
  (∀ w : Half, (∃ e, decode w = .error e) ↔
    ¬ (1 ≤ (w.extractLsb' 0 8).toNat ∧ (w.extractLsb' 0 8).toNat ≤ 7) ∨ w.extractLsb' 10 6 ≠ 0 ∨
      (w.extractLsb' 0 8 ≠ 0x02 ∧ w.extractLsb' 8 2 ≠ 0)) ∧
  ∀ (s : State) (k : Nat) (c : Command),
    s.outstanding[k]? = some c → withinCapacity c.req.inp.length = true → (∃ e, decode c.req.cmd = .error e) →
    (∀ ms, s.agenda = .engine k :: ms →
      step s = .next (State.answer { s with agenda := ms } c (s.outstanding.eraseIdx k) { status := .illegalCommand })) ∧
    (s.agenda = [] → s.outstanding = [c] → step s = .next (s.answer c [] { status := .illegalCommand })) ∧
    (s.agenda = [] → 2 ≤ s.outstanding.length → k = Config.completes s.picks % s.outstanding.length →
      step s = .next (State.answer { s with picks := s.picks + 1 } c (s.outstanding.eraseIdx k)
        { status := .illegalCommand }))

/-- A step runs the decoded command. On an engine move it is the command the move names; with no move on the agenda
and one command outstanding it is that one; with several, the one the free value picks (log 8). -/
def Obligations.StepRunsTheDecodedCommand : Prop :=
  ∀ (s : State) (i : Instr),
    (∀ k ms c, s.agenda = .engine k :: ms → s.outstanding[k]? = some c → decode c.req.cmd = .ok i →
      step s = exec i { s with agenda := ms, outstanding := c :: s.outstanding.eraseIdx k }) ∧
    (∀ c, s.agenda = [] → s.outstanding = [c] → decode c.req.cmd = .ok i → step s = exec i s) ∧
    (∀ k c, s.agenda = [] → 2 ≤ s.outstanding.length → k = Config.completes s.picks % s.outstanding.length →
      s.outstanding[k]? = some c → decode c.req.cmd = .ok i →
      step s = exec i { s with picks := s.picks + 1, outstanding := c :: s.outstanding.eraseIdx k })

/-- R5: this engine's parameters are legal: injective type codes, a `MAX_PAYLOAD` that R5 allows and a `BUF_CAP` of at
least 65567. That `MAX_PAYLOAD` is 65535, the spec's decision, and not 65503, is log 5. -/
def Obligations.ParametersAreLegal : Prop :=
  Config.params.wf = true ∧ Config.maxPayload = 65535 ∧ ∀ cap, Config.bufCap = some cap → 65567 ≤ cap

/-! ## Byte order and layouts (spec/00_scope.md R9, spec/30_encoding.md Part B) -/

/-- R9: the values of `rd16` and `rd32`, and `be16` and `be32` as their inverses. -/
def Obligations.BigEndianFields : Prop :=
  (∀ hi lo : Byte, (rd16 hi lo).toNat = 256 * hi.toNat + lo.toNat ∧ be16 (rd16 hi lo) = [hi, lo]) ∧
  ∀ b3 b2 b1 b0 : Byte,
    (rd32 b3 b2 b1 b0).toNat = 16777216 * b3.toNat + 65536 * b2.toNat + 256 * b1.toNat + b0.toNat ∧
    be32 (rd32 b3 b2 b1 b0) = [b3, b2, b1, b0]

/-- R93: the header, byte by byte. -/
def Obligations.HeaderBytes : Prop :=
  ∀ (t : Byte) (s d : Half) (p ttl : Byte) (ts : Word) (n c : Half),
    hdr t s d p ttl ts n c =
      [0x52, 0x4F, 0x41, 0x4D, 0x01, t, s.extractLsb' 8 8, s.extractLsb' 0 8, d.extractLsb' 8 8, d.extractLsb' 0 8,
        p, ttl, ts.extractLsb' 24 8, ts.extractLsb' 16 8, ts.extractLsb' 8 8, ts.extractLsb' 0 8,
        n.extractLsb' 8 8, n.extractLsb' 0 8, c.extractLsb' 8 8, c.extractLsb' 0 8,
        0x00, 0x00, 0x00, 0x00, 0x00, 0x00, 0x00, 0x00, 0x00, 0x00, 0x00, 0x00]

/-- R140: an AlertPayload is 258 bytes: class, tone, then the first 256 bytes of the message, zero-padded. -/
def Obligations.AlertPayloadBytes : Prop :=
  ∀ (cl tn : Byte) (m : Bytes),
    (alertPayload cl tn m).length = 258 ∧ (alertPayload cl tn m)[0]? = some cl ∧ (alertPayload cl tn m)[1]? = some tn ∧
    ∀ i, i < 256 → (alertPayload cl tn m)[i + 2]? = some (m.getD i 0x00)

/-- R81, R91: for any injective type codes, `R_TKIND` is the index of the name with that code, and 0xFF exactly where no
name has it; this engine's codes are injective (R80). -/
def Obligations.TypeClassification : Prop :=
  Config.typeCodes.distinct = true ∧
  ∀ (codes : TypeCodes) (b : Byte), codes.distinct = true →
    (∀ n : PacketType, tkindByte codes b = nameIndex n ↔ codes.code n = b) ∧
    (tkindByte codes b = 0xFF ↔ ∀ n : PacketType, codes.code n ≠ b)

/-- R90: the byte of each status. -/
def Obligations.StatusBytes : Prop :=
  [Status.ok, .tooShort, .badSync, .truncated, .checksumMismatch, .oversizedPayload, .notAnAlert, .malformedAlertPayload,
    .invalidText, .illegalCommand].map Status.code =
  [0x00, 0x01, 0x02, 0x03, 0x04, 0x05, 0x06, 0x07, 0x08, 0xFF]

/-! ## Checksum Engine (spec/40_checksum.md) -/

/-- R102: CRC16 completes with OK and `R_CRC`; nothing else changes. -/
def Obligations.Crc16Completes : Prop :=
  decode 0x0001 = .ok .crc16 ∧
  ∀ (s : State) (c : Command) (cs : List Command),
    s.outstanding = c :: cs → withinCapacity c.req.inp.length = true →
    exec .crc16 s = .next (s.answer c cs { status := .ok, rCrc := some (crc16 c.req.inp) })

/-- R105 and R102's corner cases: the check value, the empty sequence, 0x00 and 0xFF. -/
def Obligations.CrcCheckValues : Prop :=
  crc16 [0x31, 0x32, 0x33, 0x34, 0x35, 0x36, 0x37, 0x38, 0x39] = 0x29B1 ∧
  crc16 [] = 0xFFFF ∧ crc16 [0x00] = 0xE1F0 ∧ crc16 [0xFF] = 0xFF00

/-- R101: its algorithm over natural numbers, with the mask after each round, and with one mask at the end, give `crc16`. -/
def Obligations.CrcAlgorithm : Prop :=
  ∀ data : Bytes,
    let shift := fun a : Nat => if a.testBit 15 then (a <<< 1) ^^^ 0x1021 else a <<< 1
    data.foldl (fun acc b => (fun a => shift a % 65536)^[8] (acc ^^^ (b.toNat <<< 8))) 0xFFFF = (crc16 data).toNat ∧
    data.foldl (fun acc b => shift^[8] (acc ^^^ (b.toNat <<< 8))) 0xFFFF % 65536 = (crc16 data).toNat

/-- R104: equal-length inputs differ by the `crc0` of their difference, and a single flipped bit is always detected. -/
def Obligations.CrcErrorDetection : Prop :=
  (∀ a b : Bytes, a.length = b.length →
    crc16 a ^^^ crc16 b = crcFrom 0x0000 (List.zipWith (fun x y => x ^^^ y) a b)) ∧
  ∀ (a : Bytes) (k j : Nat), k < a.length → j < 8 → crc16 (flipBit a k j) ≠ crc16 a

/-! ## Packet Codec (spec/41_packet_codec.md) -/

/-- R112: PKT_ENCODE with each setting of the modifier bits completes: a payload within `MAX_PAYLOAD` with the
frame, the timestamp, the length and the checksum, reading `NOW` exactly when `TSP` = 0; a longer one with OversizedPayload
alone. It holds of either value of `MAX_PAYLOAD`. -/
def Obligations.PktEncodeCompletes : Prop :=
  (∀ ttlp tsp : Bool, decode (0x0002 ||| (if ttlp then 0x0100 else 0) ||| (if tsp then 0x0200 else 0)) =
    .ok (.pktEncode ttlp tsp)) ∧
  ∀ (ttlp tsp : Bool) (s : State) (c : Command) (cs : List Command),
    s.outstanding = c :: cs → withinCapacity c.req.inp.length = true →
    let r := c.req
    let ttl : Byte := if ttlp then r.aTtl else 5
    let ts : Word := if tsp then r.aTs else Config.now s.nowDraws
    let n : Half := BitVec.ofNat 16 r.inp.length
    let sum : Half := crc16 (hdr r.aType r.aSrc r.aDst r.aPri ttl ts n 0x0000 ++ r.inp)
    (r.inp.length ≤ Config.maxPayload →
      exec (.pktEncode ttlp tsp) s =
        .next (State.answer { s with nowDraws := if tsp then s.nowDraws else s.nowDraws + 1 } c cs
          { status := .ok, out := some (hdr r.aType r.aSrc r.aDst r.aPri ttl ts n sum ++ r.inp),
            rTs := some ts, rLen := some n, rChk := some sum })) ∧
    (Config.maxPayload < r.inp.length →
      exec (.pktEncode ttlp tsp) s = .next (s.answer c cs { status := .oversizedPayload }))

/-- R113: patching the two checksum bytes of the frame built with checksum 0 gives PKT_ENCODE's `OUT`. -/
def Obligations.SinglePassEncodeIsEquivalent : Prop :=
  ∀ (ttlp tsp : Bool) (s : State) (r : Request) (resp : Response) (f : Bytes),
    s.Serves r → Answers (.pktEncode ttlp tsp) s resp → resp.out = some f →
    let ttl : Byte := if ttlp then r.aTtl else 5
    let ts : Word := if tsp then r.aTs else Config.now s.nowDraws
    let once := hdr r.aType r.aSrc r.aDst r.aPri ttl ts (BitVec.ofNat 16 r.inp.length) 0x0000 ++ r.inp
    f = (once.set 18 ((crc16 once).extractLsb' 8 8)).set 19 ((crc16 once).extractLsb' 0 8)

/-- R115: PKT_DECODE completes on every input, with the outcome of the first failing check, and on OK with every
packet field, each read from its own offset (R94). -/
def Obligations.PktDecodeCompletes : Prop :=
  decode 0x0003 = .ok .pktDecode ∧
  ∀ (s : State) (c : Command) (cs : List Command),
    s.outstanding = c :: cs → withinCapacity c.req.inp.length = true →
    let b := c.req.inp
    let byte := fun k : Nat => b.getD k 0
    let n := (rd16 (byte 16) (byte 17)).toNat
    exec .pktDecode s = .next (s.answer c cs
      (if b.length < 32 then { status := .tooShort }
      else if b.take 4 ≠ [0x52, 0x4F, 0x41, 0x4D] then { status := .badSync }
      else if b.length < 32 + n then { status := .truncated }
      else if crc16 (b.take 18 ++ [0x00, 0x00] ++ (b.drop 20).take 12 ++ (b.drop 32).take n) ≠ rd16 (byte 18) (byte 19)
        then { status := .checksumMismatch }
      else
        { status := .ok, rVer := some (byte 4), rType := some (byte 5),
          rTkind := some (tkindByte Config.typeCodes (byte 5)),
          rSrc := some (rd16 (byte 6) (byte 7)), rDst := some (rd16 (byte 8) (byte 9)), rPri := some (byte 10),
          rPknown := some (decide (byte 10 = 0 ∨ byte 10 = 1 ∨ byte 10 = 2 ∨ byte 10 = 9)), rTtl := some (byte 11),
          rTs := some (rd32 (byte 12) (byte 13) (byte 14) (byte 15)), rLen := some (rd16 (byte 16) (byte 17)),
          rChk := some (rd16 (byte 18) (byte 19)), out := some ((b.drop 32).take n) }))

/-- R122: a frame that decodes with OK decodes to the same response with any trailing bytes appended. -/
def Obligations.TrailingBytesAreIgnored : Prop :=
  ∀ (s s' : State) (r r' : Request) (resp : Response) (trailing : Bytes),
    s.Serves r → Answers .pktDecode s resp → resp.status = .ok →
    s'.Serves r' → r'.inp = r.inp ++ trailing → Answers .pktDecode s' resp

/-- R119, R120, R121: no version, type or priority byte makes a decode fail, nor do reserved bytes (R117): a frame whose
checksum covers its bytes as received decodes with OK whatever they are, every field is returned as received, and an
unknown type or priority only shows in `R_TKIND` or `R_PKNOWN`. -/
def Obligations.DecodeAcceptsAnyVersionTypePriority : Prop :=
  ∀ (s : State) (r : Request) (ver type pri ttl : Byte) (src dst sum : Half) (ts : Word) (reserved payload : Bytes),
    s.Serves r → reserved.length = 12 → payload.length ≤ 65535 →
    let n : Half := BitVec.ofNat 16 payload.length
    let front := [0x52, 0x4F, 0x41, 0x4D, ver, type] ++ be16 src ++ be16 dst ++ [pri, ttl] ++ be32 ts ++ be16 n
    sum = crc16 (front ++ [0x00, 0x00] ++ reserved ++ payload) →
    r.inp = front ++ be16 sum ++ reserved ++ payload →
    (∀ resp, Answers .pktDecode s resp ↔ resp =
      { status := .ok, rVer := some ver, rType := some type, rTkind := some (tkindByte Config.typeCodes type),
        rSrc := some src, rDst := some dst, rPri := some pri,
        rPknown := some (decide (pri = 0 ∨ pri = 1 ∨ pri = 2 ∨ pri = 9)), rTtl := some ttl, rTs := some ts,
        rLen := some n, rChk := some sum, out := some payload }) ∧
    ((∀ name, Config.typeCodes.code name ≠ type) → tkindByte Config.typeCodes type = 0xFF)

/-- R124: ADDRESSED completes with the verdict, 1 exactly when the destination is the node or broadcast. -/
def Obligations.AddressedCompletes : Prop :=
  decode 0x0004 = .ok .addressed ∧
  ∀ (s : State) (c : Command) (cs : List Command),
    s.outstanding = c :: cs → withinCapacity c.req.inp.length = true →
    exec .addressed s = .next (s.answer c cs
      { status := .ok, rBool := some (decide (c.req.aDst = c.req.aNode ∨ c.req.aDst = 0xFFFF)) })

/-- R125: decoding an encoded frame, with any trailing bytes, gives every field of the packet back. -/
def Obligations.PacketRoundTrip : Prop :=
  ∀ (ttlp tsp : Bool) (s s' : State) (r r' : Request) (resp : Response) (f trailing : Bytes),
    s.Serves r → Answers (.pktEncode ttlp tsp) s resp → resp.out = some f →
    s'.Serves r' → r'.inp = f ++ trailing →
    Answers .pktDecode s'
      { status := .ok, rVer := some 1, rType := some r.aType, rTkind := some (tkindByte Config.typeCodes r.aType),
        rSrc := some r.aSrc, rDst := some r.aDst, rPri := some r.aPri, rPknown := some (pknown r.aPri),
        rTtl := some (if ttlp then r.aTtl else 5), rTs := resp.rTs, rLen := some (BitVec.ofNat 16 r.inp.length),
        rChk := resp.rChk, out := some r.inp }

/-- R126: a part of an encoded frame cut short at `len` bytes. -/
def Obligations.TruncatedFrames : Prop :=
  ∀ (ttlp tsp : Bool) (s s' : State) (r r' : Request) (resp : Response) (f : Bytes) (len : Nat),
    s.Serves r → Answers (.pktEncode ttlp tsp) s resp → resp.out = some f →
    s'.Serves r' → r'.inp = f.take len →
    (len < 32 → Answers .pktDecode s' { status := .tooShort }) ∧
    (32 ≤ len → len < 32 + r.inp.length → Answers .pktDecode s' { status := .truncated }) ∧
    (len = 32 + r.inp.length → ∃ whole, Answers .pktDecode s' whole ∧ whole.status = .ok)

/-- R127: an encoded frame with one bit flipped, by the offset of the flipped bit. Where the declared length `len` fell,
the outcome is by the CRC over the bytes it now covers, which the rules let equal the stored checksum. -/
def Obligations.SingleBitFlips : Prop :=
  ∀ (ttlp tsp : Bool) (s s' : State) (r r' : Request) (resp : Response) (f : Bytes) (k j : Nat),
    s.Serves r → Answers (.pktEncode ttlp tsp) s resp → resp.out = some f → k < 32 + r.inp.length → j < 8 →
    s'.Serves r' → r'.inp = flipBit f k j →
    let len := (rd16 (r'.inp.getD 16 0) (r'.inp.getD 17 0)).toNat
    let stored := rd16 (r'.inp.getD 18 0) (r'.inp.getD 19 0)
    let covered := crc16 (r'.inp.take 18 ++ [0x00, 0x00] ++ (r'.inp.drop 20).take 12 ++ (r'.inp.drop 32).take len)
    (k < 4 → Answers .pktDecode s' { status := .badSync }) ∧
    (4 ≤ k → k ≠ 16 → k ≠ 17 → Answers .pktDecode s' { status := .checksumMismatch }) ∧
    (k = 16 ∨ k = 17 → len ≠ r.inp.length ∧
      (r.inp.length < len → Answers .pktDecode s' { status := .truncated }) ∧
      (len < r.inp.length →
        (covered = stored → ∃ g, Answers .pktDecode s' g ∧ g.status = .ok) ∧
        (covered ≠ stored → Answers .pktDecode s' { status := .checksumMismatch })))

/-! ## Alert Codec (spec/42_alert_codec.md) -/

/-- R141: ALERT_PRIORITY completes with the priority of the class: 9 for 9, 2 for 2, 1 for every other. -/
def Obligations.AlertPriorityCompletes : Prop :=
  decode 0x0005 = .ok .alertPriority ∧
  ∀ (s : State) (c : Command) (cs : List Command),
    s.outstanding = c :: cs → withinCapacity c.req.inp.length = true →
    exec .alertPriority s = .next (s.answer c cs
      { status := .ok, rPri := some (if c.req.aClass = 9 then 9 else if c.req.aClass = 2 then 2 else 1) })

/-- R142: ALERT_ENCODE completes with the frame of the alert packet, ttl 5 and one `NOW` draw. -/
def Obligations.AlertEncodeCompletes : Prop :=
  decode 0x0006 = .ok .alertEncode ∧
  ∀ (s : State) (c : Command) (cs : List Command),
    s.outstanding = c :: cs → withinCapacity c.req.inp.length = true →
    let r := c.req
    let pl := alertPayload r.aClass r.aTone r.inp
    let pri : Byte := if r.aClass = 9 then 9 else if r.aClass = 2 then 2 else 1
    let ts := Config.now s.nowDraws
    let sum := crc16 (hdr (Config.typeCodes.code .alert) r.aSrc r.aDst pri 5 ts 258 0x0000 ++ pl)
    exec .alertEncode s =
      .next (State.answer { s with nowDraws := s.nowDraws + 1 } c cs
        { status := .ok, out := some (hdr (Config.typeCodes.code .alert) r.aSrc r.aDst pri 5 ts 258 sum ++ pl),
          rPri := some pri, rTs := some ts, rLen := some 258, rChk := some sum })

/-- R142: ALERT_ENCODE is exactly PKT_ENCODE of the AlertPayload with the alert's type code and priority and both
modifier bits 0: the same frame, timestamp, length and checksum. -/
def Obligations.AlertEncodeIsPktEncode : Prop :=
  ∀ (s s' : State) (r : Request) (resp resp' : Response),
    s.Serves r → Answers .alertEncode s resp →
    s'.Serves { r with
      aType := Config.typeCodes.code .alert
      aPri := if r.aClass = 9 then 9 else if r.aClass = 2 then 2 else 1
      inp := alertPayload r.aClass r.aTone r.inp } →
    s'.nowDraws = s.nowDraws → Answers (.pktEncode false false) s' resp' →
    resp = { resp' with rPri := some (if r.aClass = 9 then 9 else if r.aClass = 2 then 2 else 1) }

/-- R147: ALERT_DECODE completes with the outcome of the first failing check, and on OK with class, tone and the message
without its trailing nulls. -/
def Obligations.AlertDecodeCompletes : Prop :=
  decode 0x0007 = .ok .alertDecode ∧
  ∀ (s : State) (c : Command) (cs : List Command),
    s.outstanding = c :: cs → withinCapacity c.req.inp.length = true →
    let b := c.req.inp
    let m := rstrip0 ((b.drop 2).take 256)
    exec .alertDecode s = .next (s.answer c cs
      (if c.req.aType ≠ Config.typeCodes.code .alert then { status := .notAnAlert }
      else if b.length ≠ 258 then { status := .malformedAlertPayload }
      else if utf8Valid m = false then { status := .invalidText }
      else { status := .ok, rClass := some (b.getD 0 0), rTone := some (b.getD 1 0), out := some m }))

/-- R148: `rstrip0(b)` is `b[0:j]` for the least `j` from which on every byte is 0x00. -/
def Obligations.TrailingNullsStripped : Prop :=
  ∀ b : Bytes, ∃ j, j ≤ b.length ∧ rstrip0 b = b.take j ∧
    (∀ i, j ≤ i → i < b.length → b[i]? = some 0x00) ∧
    ∀ j', (∀ i, j' ≤ i → i < b.length → b[i]? = some 0x00) → j ≤ j'

/-- R149: a byte sequence is valid exactly when it is a concatenation of well-formed sequences, the rows of R149's table. -/
def Obligations.Utf8ValidIsConcatenation : Prop :=
  ∀ m : Bytes, utf8Valid m = true ↔ ∃ qs : List Bytes, m = qs.flatten ∧ ∀ q ∈ qs, utf8Sequence q

/-- R151: the frame of an alert decodes to an ALERT packet, and its payload interprets to the class, the tone and the
message cut at 256 bytes without trailing nulls, or to InvalidText when that is not valid UTF-8. -/
def Obligations.AlertRoundTrip : Prop :=
  ∀ (s s' s'' : State) (r r' r'' : Request) (resp : Response) (f : Bytes),
    s.Serves r → Answers .alertEncode s resp → resp.out = some f →
    s'.Serves r' → r'.inp = f →
    s''.Serves r'' → r''.aType = Config.typeCodes.code .alert → r''.inp = alertPayload r.aClass r.aTone r.inp →
    (∃ packet, Answers .pktDecode s' packet ∧ packet.status = .ok ∧
      packet.rType = some (Config.typeCodes.code .alert) ∧ packet.rTkind = some 5 ∧
      packet.rPri = some (if r.aClass = 9 then 9 else if r.aClass = 2 then 2 else 1) ∧ packet.rTtl = some 5 ∧
      packet.rLen = some 258 ∧ packet.out = some r''.inp) ∧
    (utf8Valid (rstrip0 (msg256 r.inp)) = true → Answers .alertDecode s''
      { status := .ok, rClass := some r.aClass, rTone := some r.aTone, out := some (rstrip0 (msg256 r.inp)) }) ∧
    (utf8Valid (rstrip0 (msg256 r.inp)) = false → Answers .alertDecode s'' { status := .invalidText })

/-- R151: a message of at most 256 bytes of valid UTF-8 with no trailing NUL is recovered whole; an ASCII message with no NUL
of any length is recovered as its first 256 bytes. -/
def Obligations.AlertMessageRecovered : Prop :=
  (∀ m : Bytes, m.length ≤ 256 → utf8Valid m = true → m.getLast? ≠ some 0x00 → rstrip0 (msg256 m) = m) ∧
  ∀ m : Bytes, (∀ b ∈ m, 0x00 < b ∧ b < 0x80) →
    rstrip0 (msg256 m) = m.take 256 ∧ utf8Valid (m.take 256) = true

/-- R150: after a PKT_DECODE with OK, `R_TKIND` = 5 says that the packet is an alert, and any other kind, unknown
included, makes ALERT_DECODE with its type byte fail with NotAnAlert; with `R_TKIND` = 5 it never does. -/
def Obligations.DemultiplexByType : Prop :=
  ∀ (s s' : State) (r r' : Request) (packet : Response),
    s.Serves r → Answers .pktDecode s packet → packet.status = .ok →
    s'.Serves r' → packet.rType = some r'.aType →
    (packet.rTkind ≠ some 5 → Answers .alertDecode s' { status := .notAnAlert }) ∧
    (packet.rTkind = some 5 → ¬ Answers .alertDecode s' { status := .notAnAlert })

/-- 30_encoding.md R75, R150: the sequence FRAME_ALERT is PKT_DECODE of the frame, whatever its outcome, followed by
ALERT_DECODE of its type and payload where `R_TKIND` is ALERT. In every other case, a failed decode among them, it stops
after the first command. -/
def Obligations.FrameAlertSequence : Prop :=
  ∀ (s : State) (r : Request) (packet : Response),
    s.Serves r → Answers .pktDecode s packet →
    (frameAlert Config.params r.inp).1 = packet ∧
    (packet.status ≠ .ok → (frameAlert Config.params r.inp).2 = none) ∧
    (packet.rTkind ≠ some 5 → (frameAlert Config.params r.inp).2 = none) ∧
    (packet.rTkind = some 5 → ∃ type payload, packet.rType = some type ∧ packet.out = some payload ∧
      ∀ (s' : State) (r' : Request), s'.Serves r' → r'.aType = type → r'.inp = payload →
        ∃ resp, (frameAlert Config.params r.inp).2 = some resp ∧ Answers .alertDecode s' resp)

/-! ## All commands (spec/10_state.md, spec/60_exceptions.md) -/

/-- R22, R23, R90: whatever a command answers, it is a status its row of R90 names, and the fields that hold a value are
exactly those R22 gives the command on OK, and `STATUS` alone on a failure. -/
def Obligations.ResponseFieldsWritten : Prop :=
  ∀ (i : Instr) (s : State) (r : Request) (resp : Response),
    s.Serves r → Answers i s resp → resp.status ∈ mayReport i ∧ resp.writesOnly i

/-- R20, R26, R27, R170, R177: whatever its outcome, a command only ends with one response, and takes a `NOW` draw
exactly when it reads `NOW`: earlier responses, the other outstanding commands and everything else stay as they were. -/
def Obligations.CommandFrame : Prop :=
  ∀ (i : Instr) (s : State) (c : Command) (cs : List Command),
    s.outstanding = c :: cs → withinCapacity c.req.inp.length = true →
    ∃ resp, exec i s = .next (State.answer
      { s with nowDraws := if readsNow i c.req then s.nowDraws + 1 else s.nowDraws } c cs resp)

/-- R25, R58, R21: the response of a command is a function of the request fields it reads and of its `NOW` draw where it
reads one: nothing else of the state, and no field it does not read, has any effect on it. -/
def Obligations.ResponseDependsOnlyOnOperands : Prop :=
  ∀ (i : Instr) (s s' : State) (r r' : Request) (resp : Response),
    s.Serves r → s'.Serves r' → agreeOnOperands i r r' →
    (readsNow i r = true → Config.now s.nowDraws = Config.now s'.nowDraws) →
    Answers i s resp → Answers i s' resp

/-- R59, R58: two outstanding commands that read no `NOW` give the same two responses in either completion order. -/
def Obligations.CompletionOrderIsFree : Prop :=
  ∀ (s : State) (a b : Command) (cs : List Command) (i j : Instr),
    s.outstanding = a :: b :: cs →
    withinCapacity a.req.inp.length = true → withinCapacity b.req.inp.length = true →
    decode a.req.cmd = .ok i → decode b.req.cmd = .ok j → readsNow i a.req = false → readsNow j b.req = false →
    ∃ ra rb,
      runSteps 2 { s with agenda := [.engine 0, .engine 0] } =
        .next { s with agenda := [], outstanding := cs, responses := s.responses ++ [⟨a.tag, ra⟩, ⟨b.tag, rb⟩] } ∧
      runSteps 2 { s with agenda := [.engine 1, .engine 0] } =
        .next { s with agenda := [], outstanding := cs, responses := s.responses ++ [⟨b.tag, rb⟩, ⟨a.tag, ra⟩] }

/-! ## The requester's moves, reset and runs (spec/10_state.md, spec/70_reset_and_hazards.md) -/

/-- R24, R173: `BUF_CAP` is at least 65567 or unbounded; a request is refused exactly when its `IN` is longer, where it
is issued and where a command would be executed on it. -/
def Obligations.OverCapacityIsRefused : Prop :=
  (∀ n, n ≤ 65567 → withinCapacity n = true) ∧
  (∀ n, withinCapacity n = true ↔ ∀ cap, Config.bufCap = some cap → n ≤ cap) ∧
  (∀ (s : State) (r : Request) (ms : List Move), s.agenda = .issue r :: ms →
    (step s = .refused .inputOverCapacity ↔ withinCapacity r.inp.length = false)) ∧
  ∀ (i : Instr) (s : State) (c : Command) (cs : List Command), s.outstanding = c :: cs →
    (exec i s = .refused .inputOverCapacity ↔ withinCapacity c.req.inp.length = false)

/-- R55, R193: an issued request is captured whole as the newest outstanding command; no response, no other outstanding
command and no abandoned one is touched. (Its tag, the count of issued commands, is log 11.) -/
def Obligations.IssueCapturesTheRequest : Prop :=
  ∀ (s : State) (r : Request) (ms : List Move),
    s.agenda = .issue r :: ms → withinCapacity r.inp.length = true →
    step s = .next { s with
      agenda := ms
      outstanding := s.outstanding ++ [⟨s.issued, r⟩]
      issued := s.issued + 1 }

/-- R23, R194: reading a response field gives its value where the response is there and the command wrote the field, and
is the requester's fault otherwise; it changes nothing but what the requester last read. -/
def Obligations.ReadingAFieldWithoutValueFaults : Prop :=
  ∀ (s : State) (tag : Nat) (f : Field) (ms : List Move), s.agenda = .read tag f :: ms →
    (∀ v, (s.responseOf tag).bind (·.read f) = some v → step s = .next { s with agenda := ms, lastRead := some v }) ∧
    ((s.responseOf tag = none ∨ ∃ resp, s.responseOf tag = some resp ∧ resp.has f = false) →
      step s = .fault (.noValue tag f))

/-- R23: after a command has ended, reading a field of its response that R22 does not list for it, or any field but `STATUS`
after a failure, is a fault; every other read gives a value. -/
def Obligations.UnwrittenFieldsHoldNoValue : Prop :=
  ∀ (i : Instr) (s t : State) (c : Command) (cs : List Command) (resp : Response) (f : Field) (ms : List Move),
    s.outstanding = c :: cs → s.responseOf c.tag = none → exec i s = .next t → t.responseOf c.tag = some resp →
    (¬ (f = .status ∨ (resp.status = .ok ∧ f ∈ writtenOnOk i)) →
      step { t with agenda := .read c.tag f :: ms } = .fault (.noValue c.tag f)) ∧
    (f = .status ∨ (resp.status = .ok ∧ f ∈ writtenOnOk i) →
      ∃ v, resp.read f = some v ∧
        step { t with agenda := .read c.tag f :: ms } = .next { t with agenda := ms, lastRead := some v })

/-- R190, R191: a reset leaves the engine idle with no response field holding a value, and abandons the commands in
progress. (`abandoned` is how the model remembers them for R196, log 9. That a reset keeps the count of issued commands is
log 11, and that it keeps the count of `NOW` draws is log 6: both are the model's choices.) -/
def Obligations.ResetLeavesTheEngineIdle : Prop :=
  ∀ (s : State) (ms : List Move), s.agenda = .reset :: ms →
    ∃ t, step s = .next t ∧ t.outstanding = [] ∧ (∀ tag f, (t.responseOf tag).bind (·.read f) = none) ∧
      t.abandoned = s.abandoned ++ s.outstanding ∧ t.agenda = ms ∧ t.issued = s.issued ∧ t.nowDraws = s.nowDraws

/-- R34, R190: after power-on the engine is idle, no response field holds a value, and it stays so until something is issued
(that an idle step changes nothing is log 11). -/
def Obligations.IdleAfterReset : Prop :=
  State.reset.outstanding = [] ∧ (∀ tag f, (State.reset.responseOf tag).bind (·.read f) = none) ∧
  step State.reset = .next State.reset

/-- R191: a command that was issued and is neither outstanding nor answered (a reset abandoned it) is never answered. -/
def Obligations.AbandonedCommandIsNeverAnswered : Prop :=
  (∀ (s s' : State) (ms : List Move) (c : Command), s.Inv → s.agenda = .reset :: ms → c ∈ s.outstanding →
    step s = .next s' → s'.lost c.tag) ∧
  ∀ (s s' : State) (tag : Nat), s.lost tag → step s = .next s' → s'.lost tag

/-- The invariant of log 11 and R22, R23, R24 holds at reset. -/
def Obligations.InvariantHoldsAtReset : Prop := State.reset.Inv

/-- Every step keeps it: one place and at most one response for each command (R20, R22), requests within capacity (R24,
R173), and no response but those a command can give (R22, R23), with `OUT` within capacity (R24). -/
def Obligations.StepKeepsInvariant : Prop := ∀ s s' : State, s.Inv → step s = .next s' → s'.Inv

/-- R195: with no other move to come, every outstanding command completes: after as many steps as there are outstanding
commands none is left, whichever order the free value picks, and each has its response. (One completion for each step of an
empty agenda, in the free value's order, is the model's form of R195's fairness, log 8.) -/
def Obligations.EveryIssuedCommandCompletes : Prop :=
  ∀ s : State, s.agenda = [] → (∀ c ∈ s.outstanding, withinCapacity c.req.inp.length = true) →
    ∃ t, runSteps s.outstanding.length s = .next t ∧ t.outstanding = [] ∧
      ∀ c ∈ s.outstanding, ∃ d ∈ t.responses, d.tag = c.tag

/-- R191, R196: a run ends normally when every command it issued has ended, and never while one is outstanding or after a
reset has abandoned one, however long it goes on and whatever is issued, P5's second issue of the same request included: that
one is answered as a new command. (The list that remembers abandoned commands is log 9, one completion for each step of an
empty agenda log 8.) -/
def Obligations.NormalEndMeansEveryCommandEnded : Prop :=
  (∀ s : State, s.agenda = [] → s.abandoned = [] → (∀ c ∈ s.outstanding, withinCapacity c.req.inp.length = true) →
    ∃ t, runSteps s.outstanding.length s = .next t ∧ t.endsNormally = true) ∧
  (∀ s : State, s.outstanding ≠ [] → s.endsNormally = false) ∧
  (∀ (s : State) (ms : List Move), s.agenda = .reset :: ms → s.outstanding ≠ [] →
    ∃ t, step s = .next t ∧ t.abandoned ≠ []) ∧
  (∀ (n : Nat) (s t : State), s.abandoned ≠ [] → runSteps n s = .next t → t.abandoned ≠ [] ∧ t.endsNormally = false) ∧
  ∀ (s : State) (c : Command), s.outstanding = [c] → withinCapacity c.req.inp.length = true →
    ∃ t, runSteps 3 { s with agenda := [.reset, .issue c.req] } = .next t ∧ (t.responseOf s.issued).isSome = true ∧
      t.endsNormally = false
end

