-- ==== Sys2Proof/Laws/Checksum.lean ====
section
/-! SUPPORT. The laws of the CRC (spec/40_checksum.md R101, R104): each round is linear, and no nonzero accumulator becomes
0. -/

namespace Sys2Proof.Machine

theorem shiftLeft_one_xor (a b : Half) : (a ^^^ b) <<< 1 = (a <<< 1) ^^^ (b <<< 1) := by
  ext i; simp; by_cases h : i = 0 <;> simp [h]

/-- R104: a round is linear over GF(2). -/
theorem crcRound_xor (a b : Half) : crcRound (a ^^^ b) = crcRound a ^^^ crcRound b := by
  have rearrange : ∀ x y p : Half, (x ^^^ p) ^^^ (y ^^^ p) = x ^^^ y := by
    intro x y p
    rw [BitVec.xor_comm y p, ← BitVec.xor_assoc, BitVec.xor_assoc x p p, BitVec.xor_self, BitVec.xor_zero]
  unfold crcRound
  rw [BitVec.getLsbD_xor, shiftLeft_one_xor]
  cases a.getLsbD 15 <;> cases b.getLsbD 15 <;>
    simp [rearrange, BitVec.xor_assoc, BitVec.xor_comm (crcPoly) (b <<< 1)]

theorem crcRounds_xor (n : Nat) (a b : Half) : crcRounds n (a ^^^ b) = crcRounds n a ^^^ crcRounds n b := by
  induction n generalizing a b with
  | zero => rfl
  | succ n ih => rw [crcRounds, crcRounds, crcRounds, crcRound_xor, ih]

/-- A round keeps a nonzero accumulator nonzero: the polynomial's lowest bit is 1. -/
theorem crcRound_ne_zero {a : Half} (h : a ≠ 0) : crcRound a ≠ 0 := by
  intro h0
  apply h
  unfold crcRound at h0
  split at h0
  · have := congrArg (fun x : Half => x.getLsbD 0) h0
    simp [crcPoly] at this
  · rename_i top
    ext i hi
    by_cases h15 : i = 15
    · subst h15; simpa [BitVec.getLsbD_eq_getElem] using top
    · have := congrArg (fun x : Half => x.getLsbD (i + 1)) h0
      simpa [show i + 1 < 16 by omega, BitVec.getLsbD_eq_getElem hi] using this

theorem crcRounds_ne_zero (n : Nat) {a : Half} (h : a ≠ 0) : crcRounds n a ≠ 0 := by
  induction n generalizing a with
  | zero => exact h
  | succ n ih => exact ih (crcRound_ne_zero h)

theorem setWidth_shift_xor (x y : Byte) :
    ((x ^^^ y).setWidth 16 <<< 8 : Half) = (x.setWidth 16 <<< 8) ^^^ (y.setWidth 16 <<< 8) := by
  ext i; simp; by_cases h : i < 8 <;> simp [h]

/-- R104: entering a byte is linear in the accumulator and the byte. -/
theorem crcByte_xor (a b : Half) (x y : Byte) : crcByte (a ^^^ b) (x ^^^ y) = crcByte a x ^^^ crcByte b y := by
  unfold crcByte
  rw [← crcRounds_xor, setWidth_shift_xor]
  congr 1
  ac_rfl

@[simp] theorem crcFrom_nil (a : Half) : crcFrom a [] = a := rfl
@[simp] theorem crcFrom_cons (a : Half) (b : Byte) (bs : Bytes) : crcFrom a (b :: bs) = crcFrom (crcByte a b) bs := rfl

/-- R103: the bytes enter in index order. -/
theorem crcFrom_append (a : Half) (xs ys : Bytes) : crcFrom a (xs ++ ys) = crcFrom (crcFrom a xs) ys :=
  List.foldl_append

end Sys2Proof.Machine
end

