-- ==== Sys2Proof/Laws/Operands.lean ====
section
/-! SUPPORT. The laws of the operand forms: lengths, big-endian fields written and read back, the header of a frame, and
the AlertPayload. -/

namespace Sys2Proof.Machine

@[simp] theorem zeros_length (n : Nat) : (zeros n).length = n := List.length_replicate
@[simp] theorem be16_length (v : Half) : (be16 v).length = 2 := rfl
@[simp] theorem be32_length (v : Word) : (be32 v).length = 4 := rfl
@[simp] theorem syncMarker_length : syncMarker.length = 4 := rfl

@[simp] theorem hdr_length (t : Byte) (s d : Half) (p ttl : Byte) (ts : Word) (n c : Half) :
    (hdr t s d p ttl ts n c).length = 32 := rfl

/-- R9: reading back what `be16` wrote. -/
@[simp] theorem rd16_be16 (v : Half) : rd16 (v.extractLsb' 8 8) (v.extractLsb' 0 8) = v := by
  unfold rd16
  ext i hi
  simp only [BitVec.getElem_append, BitVec.getElem_extractLsb']
  split
  · simp [BitVec.getLsbD_eq_getElem hi]
  · rw [show 8 + (i - 8) = i by omega, BitVec.getLsbD_eq_getElem hi]

/-- R9: reading back what `be32` wrote. -/
@[simp] theorem rd32_be32 (v : Word) :
    rd32 (v.extractLsb' 24 8) (v.extractLsb' 16 8) (v.extractLsb' 8 8) (v.extractLsb' 0 8) = v := by
  unfold rd32
  ext i hi
  simp only [BitVec.getElem_append, BitVec.getElem_extractLsb']
  split
  · simp [BitVec.getLsbD_eq_getElem hi]
  · split
    · rw [show 8 + (i - 8) = i by omega, BitVec.getLsbD_eq_getElem hi]
    · split
      · rw [show 16 + (i - 8 - 8) = i by omega, BitVec.getLsbD_eq_getElem hi]
      · rw [show 24 + (i - 8 - 8 - 8) = i by omega, BitVec.getLsbD_eq_getElem hi]

/-- A header is read only where 32 bytes are there. -/
theorem headerFields_none {b : Bytes} : headerFields b = none ↔ b.length < 32 := by
  unfold headerFields
  split <;> simp <;> omega

/-- R93, R94: reading the header of a frame gives back what was written. -/
theorem headerFields_hdr (t : Byte) (s d : Half) (p ttl : Byte) (ts : Word) (n c : Half) (rest : Bytes) :
    headerFields (hdr t s d p ttl ts n c ++ rest) =
      some { sync := syncMarker, ver := protocolVersion, type := t, src := s, dst := d, pri := p, ttl := ttl, ts := ts,
             len := n, chk := c } := by
  unfold headerFields
  rw [dif_pos (by simp)]
  simp [hdr, be16, be32, zeros, syncMarker, slice, List.replicate]

/-- R94, R117: zeroing the checksum field of a frame's header. -/
theorem zeroedHeader_hdr (t : Byte) (s d : Half) (p ttl : Byte) (ts : Word) (n c : Half) (rest : Bytes) :
    zeroedHeader (hdr t s d p ttl ts n c ++ rest) = hdr t s d p ttl ts n 0 := by
  simp [zeroedHeader, hdr, be16, be32, zeros, syncMarker, slice, List.replicate]

/-- The bytes after the header. -/
theorem slice_payload (t : Byte) (s d : Half) (p ttl : Byte) (ts : Word) (n c : Half) (payload rest : Bytes) :
    slice (hdr t s d p ttl ts n c ++ (payload ++ rest)) 32 (32 + payload.length) = payload := by
  rw [slice, List.drop_append_of_le_length (by simp), List.drop_of_length_le (by simp)]
  simp

theorem toNat_length {n : Nat} (h : n ≤ 65535) : (BitVec.ofNat 16 n).toNat = n := by
  simp only [BitVec.toNat_ofNat]
  omega

@[simp] theorem msg256_length (m : Bytes) : (msg256 m).length = 256 := by
  unfold msg256 messageLength
  split <;> simp <;> omega

@[simp] theorem alertPayload_length (cl tn : Byte) (m : Bytes) : (alertPayload cl tn m).length = 258 := by
  simp [alertPayload]

end Sys2Proof.Machine
end

