-- ==== Sys2Proof/Laws/State.lean ====
section
/-! SUPPORT. One lemma per field per update of State: what each shared update leaves and sets. -/

namespace Sys2Proof.Machine

variable (s : State) (resp : Response) (c : Command) (cs : List Command)

@[simp] theorem State.drawNow_agenda : s.drawNow.agenda = s.agenda := rfl
@[simp] theorem State.drawNow_outstanding : s.drawNow.outstanding = s.outstanding := rfl
@[simp] theorem State.drawNow_responses : s.drawNow.responses = s.responses := rfl
@[simp] theorem State.drawNow_abandoned : s.drawNow.abandoned = s.abandoned := rfl
@[simp] theorem State.drawNow_lastRead : s.drawNow.lastRead = s.lastRead := rfl
@[simp] theorem State.drawNow_issued : s.drawNow.issued = s.issued := rfl
@[simp] theorem State.drawNow_nowDraws : s.drawNow.nowDraws = s.nowDraws + 1 := rfl
@[simp] theorem State.drawNow_picks : s.drawNow.picks = s.picks := rfl

@[simp] theorem State.answer_agenda : (s.answer c cs resp).agenda = s.agenda := rfl
@[simp] theorem State.answer_outstanding : (s.answer c cs resp).outstanding = cs := rfl
@[simp] theorem State.answer_responses : (s.answer c cs resp).responses = s.responses ++ [⟨c.tag, resp⟩] := rfl
@[simp] theorem State.answer_abandoned : (s.answer c cs resp).abandoned = s.abandoned := rfl
@[simp] theorem State.answer_lastRead : (s.answer c cs resp).lastRead = s.lastRead := rfl
@[simp] theorem State.answer_issued : (s.answer c cs resp).issued = s.issued := rfl
@[simp] theorem State.answer_nowDraws : (s.answer c cs resp).nowDraws = s.nowDraws := rfl
@[simp] theorem State.answer_picks : (s.answer c cs resp).picks = s.picks := rfl

/-- Delivering a response with nothing outstanding changes nothing. -/
theorem State.deliver_nil (h : s.outstanding = []) : s.deliver resp = s := by simp [State.deliver, h]

/-- Delivering a response ends the command being executed. -/
theorem State.deliver_cons (h : s.outstanding = c :: cs) : s.deliver resp = s.answer c cs resp := by
  simp [State.deliver, h, State.answer]

@[simp] theorem State.deliver_agenda : (s.deliver resp).agenda = s.agenda := by
  cases h : s.outstanding <;> simp [State.deliver, h]
@[simp] theorem State.deliver_outstanding : (s.deliver resp).outstanding = s.outstanding.tail := by
  cases h : s.outstanding <;> simp [State.deliver, h]
@[simp] theorem State.deliver_abandoned : (s.deliver resp).abandoned = s.abandoned := by
  cases h : s.outstanding <;> simp [State.deliver, h]
@[simp] theorem State.deliver_lastRead : (s.deliver resp).lastRead = s.lastRead := by
  cases h : s.outstanding <;> simp [State.deliver, h]
@[simp] theorem State.deliver_issued : (s.deliver resp).issued = s.issued := by
  cases h : s.outstanding <;> simp [State.deliver, h]
@[simp] theorem State.deliver_nowDraws : (s.deliver resp).nowDraws = s.nowDraws := by
  cases h : s.outstanding <;> simp [State.deliver, h]
@[simp] theorem State.deliver_picks : (s.deliver resp).picks = s.picks := by
  cases h : s.outstanding <;> simp [State.deliver, h]

@[simp] theorem resetEngine_agenda : (resetEngine s).agenda = s.agenda := rfl
@[simp] theorem resetEngine_outstanding : (resetEngine s).outstanding = [] := rfl
@[simp] theorem resetEngine_responses : (resetEngine s).responses = [] := rfl
@[simp] theorem resetEngine_abandoned : (resetEngine s).abandoned = s.abandoned ++ s.outstanding := rfl
@[simp] theorem resetEngine_lastRead : (resetEngine s).lastRead = s.lastRead := rfl
@[simp] theorem resetEngine_issued : (resetEngine s).issued = s.issued := rfl
@[simp] theorem resetEngine_nowDraws : (resetEngine s).nowDraws = s.nowDraws := rfl
@[simp] theorem resetEngine_picks : (resetEngine s).picks = s.picks := rfl

end Sys2Proof.Machine
end

