-- ==== Sys2Proof/Laws/Ops.lean ====
section
/-! SUPPORT. What each shared operation can do, said once: executing a command, the engine's turn, issuing, reading, and
one step. -/

namespace Sys2Proof.Machine

theorem withinCapacity_of_le {n : Nat} (h : n ≤ 65567) : withinCapacity n = true := by
  simp [withinCapacity, Config.leastCap, h]

/-- R24: within capacity means not longer than any `BUF_CAP` there is. -/
theorem withinCapacity_iff (n : Nat) :
    withinCapacity n = true ↔ ∀ cap, Config.bufCap = some cap → n ≤ cap := by
  have least : ∀ cap, Config.bufCap = some cap → 65567 ≤ cap := by
    intro cap h
    obtain ⟨e, -, rfl⟩ := Option.map_eq_some_iff.mp h
    simp [Config.leastCap]
  cases h : Config.bufCap with
  | none => simp [withinCapacity, h]
  | some cap =>
    have := least cap h
    rw [withinCapacity, h]
    change (decide (n ≤ 65567) || decide (n ≤ cap)) = true ↔ _
    simp only [Bool.or_eq_true, decide_eq_true_eq, Option.some.injEq, forall_eq']
    omega

theorem withinCapacity_mono {m n : Nat} (h : withinCapacity n = true) (hmn : m ≤ n) : withinCapacity m = true := by
  rw [withinCapacity_iff] at *
  exact fun cap hc => hmn.trans (h cap hc)

theorem withCommand_cons {s : State} {c : Command} {cs : List Command} (k : Request → State)
    (h : s.outstanding = c :: cs) (hfit : withinCapacity c.req.inp.length = true) :
    withCommand s k = .next (k c.req) := by
  simp [withCommand, h, hfit]

/-- A command with a command outstanding and within capacity ends it. -/
theorem execute_cons {s : State} {c : Command} {cs : List Command} (f : Request → Response)
    (h : s.outstanding = c :: cs) (hfit : withinCapacity c.req.inp.length = true) :
    execute f s = .next (s.answer c cs (f c.req)) := by
  rw [execute, withCommand_cons _ h hfit, State.deliver_cons s _ c cs h]

/-- The same, for a command that may draw `NOW`. -/
theorem executeNow_cons {s : State} {c : Command} {cs : List Command} (draws : Request → Bool)
    (f : Word → Request → Response) (h : s.outstanding = c :: cs) (hfit : withinCapacity c.req.inp.length = true) :
    executeNow draws f s =
      .next (State.answer { s with nowDraws := if draws c.req then s.nowDraws + 1 else s.nowDraws } c cs
        (f (Config.now s.nowDraws) c.req)) := by
  unfold executeNow
  rw [withCommand_cons _ h hfit]
  cases draws c.req
  · simp [State.deliver_cons s _ c cs h, State.answer]
  · rw [if_pos rfl, State.deliver_cons s.drawNow _ c cs h]
    simp [State.answer, State.drawNow]

/-- A command over capacity is refused, whatever it is. -/
theorem withCommand_refused {s : State} {c : Command} {cs : List Command} (k : Request → State)
    (h : s.outstanding = c :: cs) (hfit : withinCapacity c.req.inp.length = false) :
    withCommand s k = .refused .inputOverCapacity := by
  simp [withCommand, h, hfit]

/-- `execute` with no command outstanding stays idle. -/
theorem withCommand_nil {s : State} (k : Request → State) (h : s.outstanding = []) : withCommand s k = .next s := by
  simp [withCommand, h]

/-- The response function of each command: what it answers on a `NOW` draw and a request. -/
def respond (i : Instr) (now : Word) (r : Request) : Response :=
  match i with
  | .crc16 => crc16Response r
  | .pktEncode ttlp tsp => pktEncodeResponse Config.params ttlp tsp now r
  | .pktDecode => pktDecodeResponse Config.params r
  | .addressed => addressedResponse r
  | .alertPriority => alertPriorityResponse r
  | .alertEncode => alertEncodeResponse Config.params now r
  | .alertDecode => alertDecodeResponse Config.params r

/-- Everything executing a command can do where a command is outstanding and within capacity. -/
theorem exec_cons (i : Instr) {s : State} {c : Command} {cs : List Command} (h : s.outstanding = c :: cs)
    (hfit : withinCapacity c.req.inp.length = true) :
    exec i s = .next (State.answer { s with nowDraws := if readsNow i c.req then s.nowDraws + 1 else s.nowDraws } c cs
      (respond i (Config.now s.nowDraws) c.req)) := by
  cases i with
  | crc16 => exact execute_cons _ h hfit
  | pktEncode ttlp tsp => exact executeNow_cons (pktEncodeDraws Config.params tsp) _ h hfit
  | pktDecode => exact execute_cons _ h hfit
  | addressed => exact execute_cons _ h hfit
  | alertPriority => exact execute_cons _ h hfit
  | alertEncode => exact executeNow_cons (fun _ => true) (alertEncodeResponse Config.params) h hfit
  | alertDecode => exact execute_cons _ h hfit

/-- A command over capacity is refused (R173). -/
theorem exec_refused (i : Instr) {s : State} {c : Command} {cs : List Command} (h : s.outstanding = c :: cs)
    (hfit : withinCapacity c.req.inp.length = false) : exec i s = .refused .inputOverCapacity := by
  cases i <;>
    simp only [exec, execCrc16, execPktEncode, execPktDecode, execAddressed, execAlertPriority, execAlertEncode,
      execAlertDecode, execute, executeNow, withCommand_refused _ h hfit]

/-- With no command outstanding, executing does nothing. -/
theorem exec_nil (i : Instr) {s : State} (h : s.outstanding = []) : exec i s = .next s := by
  cases i <;>
    simp only [exec, execCrc16, execPktEncode, execPktDecode, execAddressed, execAlertPriority, execAlertEncode,
      execAlertDecode, execute, executeNow, withCommand_nil _ h]

/-- What a command answers is its response function's value. -/
theorem answers_iff (i : Instr) {s : State} {r : Request} (hs : s.Serves r) (resp : Response) :
    Answers i s resp ↔ resp = respond i (Config.now s.nowDraws) r := by
  obtain ⟨⟨tag, cs, h⟩, hfit⟩ := hs
  constructor
  · rintro ⟨c, cs', t, hc, ht, hr⟩
    rw [exec_cons i h hfit] at ht
    cases ht
    simp only [State.answer_responses, List.append_cancel_left_eq, List.cons.injEq, Delivered.mk.injEq] at hr
    exact hr.1.2.symm
  · rintro rfl
    exact ⟨_, _, _, h, exec_cons i h hfit, rfl⟩

/-- The engine's turn at a command: it is executed, or its word is illegal. -/
theorem serve_cons (run : Instr → State → Host.Outcome State Fault Refusal) {s : State} {c : Command}
    {cs : List Command} (h : s.outstanding = c :: cs) :
    serve run s = match decode c.req.cmd with | .ok i => run i s | .error _ => illegalCommand s := by
  cases hd : decode c.req.cmd <;> simp only [serve, h, hd]

/-- R59: turning to the `k`-th outstanding command. -/
theorem engineTurn_some (run : Instr → State → Host.Outcome State Fault Refusal) {s : State} {k : Nat} {c : Command}
    (h : s.outstanding[k]? = some c) :
    engineTurn run k s = serve run { s with outstanding := c :: s.outstanding.eraseIdx k } := by
  simp [engineTurn, State.bringFront, h]

theorem engineTurn_none (run : Instr → State → Host.Outcome State Fault Refusal) {s : State} {k : Nat}
    (h : s.outstanding[k]? = none) : engineTurn run k s = .next s := by
  simp [engineTurn, State.bringFront, h]

/-- What the engine's service of a command within capacity does: one response, and perhaps one `NOW` draw. -/
theorem serve_answers {s : State} {c : Command} {cs : List Command} (h : s.outstanding = c :: cs)
    (hfit : withinCapacity c.req.inp.length = true) :
    (∃ i, decode c.req.cmd = .ok i ∧
      serve exec s = .next (State.answer
        { s with nowDraws := if readsNow i c.req then s.nowDraws + 1 else s.nowDraws } c cs
        (respond i (Config.now s.nowDraws) c.req))) ∨
    ((∃ e, decode c.req.cmd = .error e) ∧ serve exec s = .next (s.answer c cs (.failed .illegalCommand))) := by
  rw [serve_cons exec h]
  cases hd : decode c.req.cmd with
  | ok i => exact .inl ⟨i, rfl, exec_cons i h hfit⟩
  | error e => exact .inr ⟨⟨e, rfl⟩, execute_cons _ h hfit⟩

/-- The engine's turn at a command over capacity is refused. -/
theorem serve_refused {s : State} {c : Command} {cs : List Command} (h : s.outstanding = c :: cs)
    (hfit : withinCapacity c.req.inp.length = false) : serve exec s = .refused .inputOverCapacity := by
  rw [serve_cons exec h]
  cases hd : decode c.req.cmd with
  | ok i => exact exec_refused i h hfit
  | error e => exact withCommand_refused (fun r => s.deliver (.failed .illegalCommand)) h hfit

/-- A response of the engine: a command's, or the one of an illegal word. -/
def engineResponse (r : Request) (resp : Response) : Prop :=
  (∃ i now, resp = respond i now r) ∨ resp = .failed .illegalCommand

/-- Everything the engine's turn can do where it answers a next state: nothing, where there is no such command; else
the command ends with one response. -/
theorem engineTurn_next {s t : State} {k : Nat} (h : engineTurn exec k s = .next t) :
    (s.outstanding[k]? = none ∧ t = s) ∨
    ∃ c resp draws, s.outstanding[k]? = some c ∧ withinCapacity c.req.inp.length = true ∧ engineResponse c.req resp ∧
      t = State.answer { s with nowDraws := draws } c (s.outstanding.eraseIdx k) resp := by
  cases hk : s.outstanding[k]? with
  | none => rw [engineTurn_none exec hk] at h; cases h; exact .inl ⟨rfl, rfl⟩
  | some c =>
    rw [engineTurn_some exec hk] at h
    cases hfit : withinCapacity c.req.inp.length with
    | false => rw [serve_refused rfl hfit] at h; cases h
    | true =>
      obtain ⟨i, -, hs⟩ | ⟨-, hs⟩ := serve_answers (s := { s with outstanding := c :: s.outstanding.eraseIdx k }) rfl hfit
      · rw [hs] at h; cases h
        exact .inr ⟨c, _, _, rfl, hfit, .inl ⟨i, _, rfl⟩, rfl⟩
      · rw [hs] at h; cases h
        exact .inr ⟨c, _, _, rfl, hfit, .inr rfl, rfl⟩

/-- The engine's turn at a command within capacity answers a next state. -/
theorem engineTurn_completes {s : State} {k : Nat} {c : Command} (h : s.outstanding[k]? = some c)
    (hfit : withinCapacity c.req.inp.length = true) :
    ∃ draws resp, engineTurn exec k s =
      .next (State.answer { s with nowDraws := draws } c (s.outstanding.eraseIdx k) resp) := by
  rw [engineTurn_some exec h]
  obtain ⟨i, -, hs⟩ | ⟨-, hs⟩ := serve_answers (s := { s with outstanding := c :: s.outstanding.eraseIdx k }) rfl hfit
  · exact ⟨_, _, hs⟩
  · exact ⟨_, _, hs⟩

/-- Everything issuing a request can do where it answers a next state. -/
theorem issue_next {r : Request} {s t : State} (h : issue r s = .next t) :
    withinCapacity r.inp.length = true ∧
    t = { s with
      outstanding := s.outstanding ++ [⟨s.issued, r⟩]
      issued := s.issued + 1 } := by
  unfold issue at h
  split at h
  · cases h; exact ⟨‹_›, rfl⟩
  · cases h

/-- Everything reading a field can do where it answers a next state. -/
theorem readField_next {tag : Nat} {f : Field} {s t : State} (h : readField tag f s = .next t) :
    ∃ v, t = { s with lastRead := some v } := by
  unfold readField at h
  split at h
  · cases h; exact ⟨_, rfl⟩
  · cases h

/-- Everything a step can do where it answers a next state. -/
theorem step_next {s t : State} (h : step s = .next t) :
    (∃ r ms, s.agenda = .issue r :: ms ∧ issue r { s with agenda := ms } = .next t) ∨
    (∃ k ms, s.agenda = .engine k :: ms ∧ engineTurn exec k { s with agenda := ms } = .next t) ∨
    (∃ ms, s.agenda = .reset :: ms ∧ t = resetEngine { s with agenda := ms }) ∨
    (∃ tag f ms, s.agenda = .read tag f :: ms ∧ readField tag f { s with agenda := ms } = .next t) ∨
    (s.agenda = [] ∧ ∃ k p, engineTurn exec k { s with picks := p } = .next t) := by
  have shape : s.agenda = [] ∨ ∃ m ms, s.agenda = m :: ms := by cases s.agenda <;> simp
  obtain ha | ⟨m, ms, ha⟩ := shape
  · simp only [step, ha, engineFree] at h
    split at h
    · exact .inr (.inr (.inr (.inr ⟨ha, 0, s.picks, h⟩)))
    · rw [← ha] at h
      exact .inr (.inr (.inr (.inr ⟨ha, _, _, h⟩)))
  · simp only [step, ha] at h
    rw [ha]
    cases m with
    | issue r => exact .inl ⟨r, ms, rfl, h⟩
    | engine k => exact .inr (.inl ⟨k, ms, rfl, h⟩)
    | reset => cases h; exact .inr (.inr (.inl ⟨ms, rfl, rfl⟩))
    | read tag f => exact .inr (.inr (.inr (.inl ⟨tag, f, ms, rfl, h⟩)))

/-- A step on an engine move: the engine serves the command the move names. -/
theorem step_engine {s : State} {k : Nat} {ms : List Move} {c : Command} (ha : s.agenda = .engine k :: ms)
    (hc : s.outstanding[k]? = some c) :
    step s = serve exec { s with agenda := ms, outstanding := c :: s.outstanding.eraseIdx k } := by
  simp only [step, ha]
  exact engineTurn_some exec hc

/-- A step with no move on the agenda and one command outstanding: the engine serves that one. -/
theorem step_free_one {s : State} {c : Command} (ha : s.agenda = []) (ho : s.outstanding = [c]) :
    step s = serve exec s := by
  simp only [step, ha, engineFree, ho, List.length_singleton, le_refl, if_true]
  rw [engineTurn_some exec (c := c) (by rw [ho]; rfl)]
  simp only [ho, List.eraseIdx_zero, List.tail_cons]
  rw [← ho]

/-- A step with no move on the agenda and several commands outstanding: the engine serves the one the free value picks. -/
theorem step_free_several {s : State} {c : Command} (ha : s.agenda = []) (hn : 2 ≤ s.outstanding.length)
    (hc : s.outstanding[Config.completes s.picks % s.outstanding.length]? = some c) :
    step s = serve exec { s with
      picks := s.picks + 1
      outstanding := c :: s.outstanding.eraseIdx (Config.completes s.picks % s.outstanding.length) } := by
  simp only [step, ha, engineFree, if_neg (show ¬ s.outstanding.length ≤ 1 by omega)]
  rw [← ha]
  exact engineTurn_some exec (s := { s with picks := s.picks + 1 }) hc

@[simp] theorem runSteps_zero (s : State) : runSteps 0 s = .next s := rfl

/-- A run whose first step answers a next state goes on from it. -/
theorem runSteps_next {s t : State} (k : Nat) (h : step s = .next t) : runSteps (k + 1) s = runSteps k t := by
  rw [runSteps, h]

end Sys2Proof.Machine
end

