-- ==== Sys2Proof/Laws/PerInstr.lean ====
section
/-! SUPPORT. What holds of every command as syntax, one lemma per constructor (spec/30_encoding.md R70 to R73,
spec/opcode_table.json). -/

namespace Sys2Proof.Laws

/-- The "match" of a command's row of spec/opcode_table.json. -/
def Encoding.rowMatch : Instr → Half
  | .crc16 => 0x0001
  | .pktEncode _ _ => 0x0002
  | .pktDecode => 0x0003
  | .addressed => 0x0004
  | .alertPriority => 0x0005
  | .alertEncode => 0x0006
  | .alertDecode => 0x0007

/-- The "mask" of a command's row of spec/opcode_table.json. -/
def Encoding.rowMask : Instr → Half
  | .crc16 => 0xFFFF
  | .pktEncode _ _ => 0xFCFF
  | .pktDecode => 0xFFFF
  | .addressed => 0xFFFF
  | .alertPriority => 0xFFFF
  | .alertEncode => 0xFFFF
  | .alertDecode => 0xFFFF

/-- The command is well formed, its word lies in its own row of the table, and none of R73's three grounds makes that
word illegal. -/
def Encoding.Statement (i : Instr) : Prop :=
  i.wf = true ∧ encode i &&& Encoding.rowMask i = Encoding.rowMatch i ∧ (CommandWord.ofBits (encode i)).wf = true

theorem Encoding.crc16 : Encoding.Statement .crc16 := ⟨rfl, by decide, by decide⟩

theorem Encoding.pktEncode (ttlp tsp : Bool) : Encoding.Statement (.pktEncode ttlp tsp) := by
  cases ttlp <;> cases tsp <;> exact ⟨rfl, by decide, by decide⟩

theorem Encoding.pktDecode : Encoding.Statement .pktDecode := ⟨rfl, by decide, by decide⟩

theorem Encoding.addressed : Encoding.Statement .addressed := ⟨rfl, by decide, by decide⟩

theorem Encoding.alertPriority : Encoding.Statement .alertPriority := ⟨rfl, by decide, by decide⟩

theorem Encoding.alertEncode : Encoding.Statement .alertEncode := ⟨rfl, by decide, by decide⟩

theorem Encoding.alertDecode : Encoding.Statement .alertDecode := ⟨rfl, by decide, by decide⟩

end Sys2Proof.Laws
end

