-- ==== Sys2Proof/Laws/Text.lean ====
section
/-! SUPPORT. The laws of the text rules of ALERT_DECODE: stripping trailing nulls (spec/42_alert_codec.md R148) and UTF-8
validity (R149). -/

namespace Sys2Proof.Machine

@[simp] theorem rstrip0_nil : rstrip0 [] = [] := rfl

/-- R148: a sequence of nulls strips to nothing. -/
@[simp] theorem rstrip0_zeros (n : Nat) : rstrip0 (zeros n) = [] := by
  induction n with
  | zero => rfl
  | succ n ih => simp [zeros, List.replicate_succ, rstrip0] at *; simp [ih]

/-- R148: appended nulls are stripped. -/
theorem rstrip0_append_zeros (b : Bytes) (n : Nat) : rstrip0 (b ++ zeros n) = rstrip0 b := by
  induction b with
  | nil => simp
  | cons x xs ih => simp [rstrip0, ih]

/-- R148: a sequence that does not end in a null is kept whole. -/
theorem rstrip0_of_last {b : Bytes} (h : b.getLast? ≠ some 0x00) : rstrip0 b = b := by
  induction b with
  | nil => rfl
  | cons x xs ih =>
    cases xs with
    | nil => simp at h; simp [rstrip0, h]
    | cons y ys => rw [rstrip0, ih (by simpa using h)]

@[simp] theorem utf8Scan_nil_nil : utf8Scan [] [] = true := rfl
@[simp] theorem utf8Scan_owed_nil (g : ByteRange) (gs : List ByteRange) : utf8Scan (g :: gs) [] = false := rfl
theorem utf8Scan_owed_cons (g : ByteRange) (gs : List ByteRange) (b : Byte) (bs : Bytes) :
    utf8Scan (g :: gs) (b :: bs) = (g.has b && utf8Scan gs bs) := rfl
theorem utf8Scan_begin (b : Byte) (bs : Bytes) :
    utf8Scan [] (b :: bs) = match utf8Tail b with | some tail => utf8Scan tail bs | none => false := rfl

/-- R149, first row: an ASCII byte is a sequence of its own. -/
theorem utf8Tail_ascii {b : Byte} (h : b < 0x80) : utf8Tail b = some [] := by
  have : b.toNat ≤ 127 := by have := BitVec.lt_def.mp h; simpa using Nat.le_of_lt_succ this
  simp [utf8Tail, utf8Table, ByteRange.has, this]

end Sys2Proof.Machine
end

