-- ==== Sys2Proof/Tests/Slice0.lean ====
section
/-! SUPPORT. The model's own tests: ill-formed terms refused, words of spec/30_encoding.md R71 and R73 decoded, vectors of
spec/95_test_vectors.md (their ids stand in the comments), and for every statement with hypotheses a state that
meets them. Every expected value comes from the spec. -/

namespace Sys2Proof.Machine

/-! ## WellFormed: one ill-formed term per check (R73 (a), (b), (c); R5) -/

theorem test_wf_refuses_opcode_0 : (CommandWord.ofBits 0x0000).opDefined = false := by decide
theorem test_wf_refuses_opcode_8 : (CommandWord.ofBits 0x0008).opDefined = false := by decide
theorem test_wf_refuses_opcode_FF : (CommandWord.ofBits 0x00FF).opDefined = false := by decide
theorem test_wf_refuses_bit_10 : (CommandWord.ofBits 0x0602).reservedZero = false := by decide
theorem test_wf_refuses_bit_15 : (CommandWord.ofBits 0x8001).reservedZero = false := by decide
theorem test_wf_refuses_ttlp_on_decode : (CommandWord.ofBits 0x0103).modifiersLegal = false := by decide
theorem test_wf_refuses_tsp_on_alert_decode : (CommandWord.ofBits 0x0207).modifiersLegal = false := by decide
theorem test_wf_refuses_payload_limit : (Params.mk profileP1 65504).wf = false := by decide
theorem test_wf_refuses_shared_type_code : (Params.mk { profileP1 with ack := 6 } 65535).wf = false := by decide
theorem test_wf_accepts_P1 : (Params.mk profileP1 65535).wf = true ∧ (Params.mk profileP1 65503).wf = true := by decide

/-! ## Decoding: each constructor's word, written out from R71, and the words of 95_test_vectors.md 2.8 -/

theorem test_decode_crc16 : decodeTableWord 16 0b0000000000000001 = some .crc16 := by decide
theorem test_decode_pktEncode :
    decodeTableWord 16 0b0000000000000010 = some (.pktEncode false false) ∧
    decodeTableWord 16 0b0000000100000010 = some (.pktEncode true false) ∧
    decodeTableWord 16 0b0000001000000010 = some (.pktEncode false true) ∧
    decodeTableWord 16 0b0000001100000010 = some (.pktEncode true true) := by decide
theorem test_decode_pktDecode : decodeTableWord 16 0b0000000000000011 = some .pktDecode := by decide
theorem test_decode_addressed : decodeTableWord 16 0b0000000000000100 = some .addressed := by decide
theorem test_decode_alertPriority : decodeTableWord 16 0b0000000000000101 = some .alertPriority := by decide
theorem test_decode_alertEncode : decodeTableWord 16 0b0000000000000110 = some .alertEncode := by decide
theorem test_decode_alertDecode : decodeTableWord 16 0b0000000000000111 = some .alertDecode := by decide
/-- V-W1 to V-W8 and V-W10. -/
theorem test_decode_illegal :
    [0x0000, 0x0008, 0x00FF, 0x0401, 0x8001, 0x0103, 0x0207, 0x0106, 0x0602].map (decodeTableWord 16) =
      List.replicate 9 none := by decide

/-! ## Vectors of 95_test_vectors.md. Where a type code matters they assume profile P1 (R80). -/

/-- The assumptions of the vectors: profile P1, MAX_PAYLOAD = 65535. -/
def vectorParams : Params := ⟨profileP1, 65535⟩

/-- `NOW` of the vectors, 1700000000. -/
def vectorNow : Word := 0x6553F100

/-- A request with no operand supplied. -/
def noOperands : Request := Request.blank 0x0000

/-- A state with one command outstanding, the request `r`. -/
def oneCommand (r : Request) : State := { State.reset with outstanding := [⟨0, r⟩], issued := 1 }

/-- The responses in the state an outcome gives. -/
def responsesOf : Host.Outcome State Fault Refusal → List Response
  | .next t => t.responses.map (·.resp)
  | .fault _ => []
  | .refused _ => []

/-- "123456789". -/
def digits : Bytes := [0x31, 0x32, 0x33, 0x34, 0x35, 0x36, 0x37, 0x38, 0x39]

/-- The request of V-E1 and of program P1. -/
def requestE1 : Request :=
  { noOperands with cmd := 0x0302, inp := [0x48, 0x49], aType := 0x02, aSrc := 1, aDst := 42, aPri := 1, aTtl := 5,
                    aTs := 0x6553F100 }

/-- `V1`, the `OUT` of V-E1. -/
def frameV1 : Bytes :=
  [0x52, 0x4F, 0x41, 0x4D, 0x01, 0x02, 0x00, 0x01, 0x00, 0x2A, 0x01, 0x05, 0x65, 0x53, 0xF1, 0x00, 0x00, 0x02, 0x37,
    0xEF, 0x00, 0x00, 0x00, 0x00, 0x00, 0x00, 0x00, 0x00, 0x00, 0x00, 0x00, 0x00, 0x48, 0x49]

/-- V-C5, as one step from a word of the table. -/
theorem test_crc16_check_value :
    responsesOf (step ((oneCommand { noOperands with inp := digits }).withFetchWord 16 0x0001)) =
      [{ status := .ok, rCrc := some 0x29B1 }] := by decide +kernel

/-- V-C6. -/
theorem test_crc16_zero_bytes : crc16 [0x00, 0x00] = 0x1D0F := by decide +kernel

/-- V-E1: `OUT`, `R_TS`, `R_LEN` and `R_CHK`, as one step. -/
theorem test_pktEncode_E1 :
    responsesOf (step (oneCommand requestE1)) =
      [{ status := .ok, out := some frameV1, rTs := some 0x6553F100, rLen := some 2, rChk := some 0x37EF }] := by
  decide +kernel

/-- V-E4: a supplied ttl of 0 is used, the timestamp is `NOW` = 0, and priority 7 is written unchanged. -/
theorem test_pktEncode_E4 :
    pktEncodeResponse vectorParams true false 0
        { noOperands with aType := 0x02, aSrc := 7, aDst := 8, aPri := 7, aTtl := 0, aTs := 99 } =
      { status := .ok
        out := some ([0x52, 0x4F, 0x41, 0x4D, 0x01, 0x02, 0x00, 0x07, 0x00, 0x08, 0x07, 0x00, 0x00, 0x00, 0x00, 0x00, 0x00,
          0x00, 0x0A, 0x2C] ++ zeros 12)
        rTs := some 0, rLen := some 0, rChk := some 0x0A2C } := by decide +kernel

/-- V-D8: version 2 and non-zero reserved bytes are accepted. -/
theorem test_pktDecode_D8 :
    pktDecodeResponse vectorParams { noOperands with inp :=
        [0x52, 0x4F, 0x41, 0x4D, 0x02, 0x02, 0x00, 0x01, 0x00, 0x02, 0x01, 0x05, 0x65, 0x53, 0xF1, 0x00, 0x00, 0x00, 0x92,
          0x45, 0x01, 0x02, 0x03, 0x04, 0x05, 0x06, 0x07, 0x08, 0x09, 0x0A, 0x0B, 0x0C] } =
      { status := .ok, rVer := some 2, rType := some 0x02, rTkind := some 1, rSrc := some 1, rDst := some 2, rPri := some 1,
        rPknown := some true, rTtl := some 5, rTs := some 0x6553F100, rLen := some 0, rChk := some 0x9245,
        out := some [] } := by decide +kernel

/-- V-D17, V-D18, V-D3 and V-D5d: sync before length, length before checksum, and the two checksum failures. -/
theorem test_pktDecode_check_order :
    ([((frameV1.set 0 0x53).set 16 0xFF).set 17 0xFF, (frameV1.take 33).set 18 0x38, flipBit frameV1 32 0,
      flipBit frameV1 17 1].map fun b => (pktDecodeResponse vectorParams { noOperands with inp := b }).status) =
      [.badSync, .truncated, .checksumMismatch, .checksumMismatch] := by decide +kernel

/-- V-A4 and V-A5, as one step each. -/
theorem test_addressed_not :
    [(42, 7), (42, 0xFFFF)].map (fun (d, n) =>
      responsesOf (step (oneCommand { noOperands with cmd := 0x0004, aDst := d, aNode := n }))) =
      [[{ status := .ok, rBool := some false }], [{ status := .ok, rBool := some false }]] := by decide +kernel

/-- V-A2 and V-A7. -/
theorem test_addressed_yes : addressedTo 0xFFFF 200 = true ∧ addressedTo 0 0 = true := by decide

/-- V-P1, as one step. -/
theorem test_alertPriority_9 :
    responsesOf (step (oneCommand { noOperands with cmd := 0x0005, aClass := 9 })) = [{ status := .ok, rPri := some 9 }] := by
  decide +kernel

/-- V-P2 to V-P8. -/
theorem test_alertPriority_others : [2, 1, 0, 3, 8, 10, 255].map alertPrio = [2, 1, 1, 1, 1, 1, 1] := by decide

set_option maxRecDepth 1000000 in
/-- V-AE1: the header with its checksum, the payload and the priority. -/
theorem test_alertEncode_AE1 :
    alertEncodeResponse vectorParams vectorNow
        { noOperands with aSrc := 1, aDst := 0xFFFF, aClass := 9, aTone := 3, inp := [0x46, 0x49, 0x52, 0x45] } =
      { status := .ok
        out := some ([0x52, 0x4F, 0x41, 0x4D, 0x01, 0x06, 0x00, 0x01, 0xFF, 0xFF, 0x09, 0x05, 0x65, 0x53, 0xF1, 0x00, 0x01,
          0x02, 0x56, 0x9B] ++ zeros 12 ++ [0x09, 0x03, 0x46, 0x49, 0x52, 0x45] ++ zeros 252)
        rPri := some 9, rTs := some 0x6553F100, rLen := some 258, rChk := some 0x569B } := by decide +kernel

set_option maxRecDepth 1000000 in
/-- V-AE3: the cut at 256 keeps the first byte of a two-byte sequence. -/
theorem test_alertEncode_AE3 :
    (alertEncodeResponse vectorParams vectorNow
        { noOperands with aSrc := 5, aDst := 6, aClass := 2, inp := List.replicate 255 0x41 ++ [0xC3, 0xA9] }).rChk =
      some 0x093C := by decide +kernel

/-- `pl(m)` of 95_test_vectors.md 2.7. -/
def alertOf (m : Bytes) : Request := { noOperands with aType := 0x06, inp := [0x01, 0x00] ++ m ++ zeros (256 - m.length) }

set_option maxRecDepth 1000000 in
/-- V-AD6: an inner NUL is kept. -/
theorem test_alertDecode_AD6 :
    alertDecodeResponse vectorParams (alertOf [0x41, 0x00, 0x42]) =
      { status := .ok, rClass := some 1, rTone := some 0, out := some [0x41, 0x00, 0x42] } := by decide +kernel

set_option maxRecDepth 1000000 in
/-- V-AD9 to V-AD13, and the order of the first two checks, V-AD17. -/
theorem test_alertDecode_failures :
    ([[0xC0, 0x80], [0xED, 0xA0, 0x80], [0xF4, 0x90, 0x80, 0x80], [0xE2, 0x82], [0xF0, 0x9F, 0x94, 0xA5]].map
        fun m => (alertDecodeResponse vectorParams (alertOf m)).status) =
      [.invalidText, .invalidText, .invalidText, .invalidText, .ok] ∧
    (alertDecodeResponse vectorParams { noOperands with aType := 0x02 }).status = .notAnAlert := by decide +kernel

/-- V-W6: an illegal word, as one step: `STATUS` = 0xFF alone. -/
theorem test_illegal_command :
    responsesOf (step ((oneCommand { noOperands with inp := frameV1 }).withFetchWord 16 0x0103)) =
      [{ status := .illegalCommand }] := by decide +kernel

/-- R23, program P1: `R_CRC` of a PKT_ENCODE holds no value, and reading it faults. -/
theorem test_read_unwritten_field :
    (match runSteps 2 { oneCommand requestE1 with agenda := [.engine 0, .read 0 .rCrc] } with
      | .next _ => none
      | .fault r => some r
      | .refused _ => none) = some (.noValue 0 .rCrc) := by decide +kernel

/-- Program P5: after the reset and the second issue, the second command has its response and the first has none, and
the run has not ended normally (R191, R196). -/
theorem test_reset_during_a_command :
    (match runSteps 3 { oneCommand { requestE1 with cmd := 0x0002 } with
        agenda := [.reset, .issue { requestE1 with cmd := 0x0002 }, .engine 0] } with
      | .next t => ((t.responseOf 0).isSome, (t.responseOf 1).map (·.status), t.endsNormally)
      | .fault _ => (true, none, true)
      | .refused _ => (true, none, true)) = (false, some .ok, false) := by decide +kernel

/-- After reset the very next step runs a table row's word. -/
theorem test_withFetchWord_from_reset :
    [0x0001, 0x0102, 0x0003, 0x0004, 0x0005].map (fun w => (responsesOf (step (State.reset.withFetchWord 16 w))).map (·.status)) =
      [[.ok], [.ok], [.tooShort], [.ok], [.ok]] := by decide +kernel

/-! ## A state and operands that meet the hypotheses of each statement that has any, clause by clause -/

/-- A command and its request with blank operands but for `IN`. -/
def withIn (cmd : Half) (b : Bytes) : Request := { noOperands with cmd := cmd, inp := b }

theorem oneCommand_serves {r : Request} (h : r.inp.length ≤ 65567) : (oneCommand r).Serves r :=
  ⟨⟨0, [], rfl⟩, withinCapacity_of_le h⟩

theorem oneCommand_answers (i : Instr) {r : Request} (h : r.inp.length ≤ 65567) :
    Answers i (oneCommand r) (respond i (Config.now 0) r) :=
  (answers_iff i (oneCommand_serves h) _).mpr rfl

/-- The hypotheses of the completion statements of CRC16, PKT_DECODE, ADDRESSED, ALERT_PRIORITY, ALERT_ENCODE and
ALERT_DECODE, of CommandFrame, and of the last clause of OverCapacityIsRefused: at the empty `IN` and at the longest every
engine accepts. -/
theorem witness_completion :
    (oneCommand (withIn 0x0001 [])).outstanding = ⟨0, withIn 0x0001 []⟩ :: [] ∧ withinCapacity 0 = true ∧
    (oneCommand (withIn 0x0003 (zeros 65567))).outstanding = ⟨0, withIn 0x0003 (zeros 65567)⟩ :: [] ∧
    withinCapacity (zeros 65567).length = true :=
  ⟨rfl, withinCapacity_of_le (by omega), rfl, withinCapacity_of_le (by simp)⟩

theorem witness_DecodeAndEncodeAgree : decode 0x0302 = .ok (.pktEncode true true) := by decide

/-- Two commands outstanding, no move on the agenda. -/
def twoCommands (r q : Request) : State := { State.reset with outstanding := [⟨0, r⟩, ⟨1, q⟩], issued := 2 }

/-- An illegal word (V-W6) under an engine move, alone, and under whichever of two the free value picks. -/
theorem witness_IllegalWordsComplete :
    let r := withIn 0x0103 frameV1
    let s : State := { oneCommand r with agenda := [.engine 0] }
    (s.outstanding[0]? = some ⟨0, r⟩ ∧ withinCapacity r.inp.length = true ∧ (∃ e, decode r.cmd = .error e) ∧
      s.agenda = .engine 0 :: []) ∧
    ((oneCommand r).agenda = [] ∧ (oneCommand r).outstanding = [⟨0, r⟩]) ∧
    ((twoCommands r r).agenda = [] ∧ 2 ≤ (twoCommands r r).outstanding.length ∧
      ∃ c, (twoCommands r r).outstanding[Config.completes 0 % 2]? = some c ∧ c.req = r) := by
  refine ⟨⟨rfl, by decide, ⟨.modifierBits, by decide⟩, rfl⟩, ⟨rfl, rfl⟩, rfl, by decide, ?_⟩
  obtain h | h : Config.completes 0 % 2 = 0 ∨ Config.completes 0 % 2 = 1 := by omega
  · exact ⟨⟨0, _⟩, congrArg _ h, rfl⟩
  · exact ⟨⟨1, _⟩, congrArg _ h, rfl⟩

theorem witness_StepRunsTheDecodedCommand_move :
    let s : State := { twoCommands (withIn 0x0001 digits) (withIn 0x0004 []) with agenda := [.engine 1] }
    s.agenda = .engine 1 :: [] ∧ s.outstanding[1]? = some ⟨1, withIn 0x0004 []⟩ ∧ decode 0x0004 = .ok .addressed :=
  ⟨rfl, rfl, by decide⟩

theorem witness_StepRunsTheDecodedCommand_one :
    (oneCommand (withIn 0x0001 digits)).agenda = [] ∧
    (oneCommand (withIn 0x0001 digits)).outstanding = [⟨0, withIn 0x0001 digits⟩] ∧ decode 0x0001 = .ok .crc16 :=
  ⟨rfl, rfl, by decide⟩

/-- Whichever of the two the free value picks. -/
theorem witness_StepRunsTheDecodedCommand_several :
    let s := twoCommands (withIn 0x0001 digits) (withIn 0x0001 [])
    s.agenda = [] ∧ 2 ≤ s.outstanding.length ∧ ∃ c, s.outstanding[Config.completes s.picks % s.outstanding.length]? = some c ∧
      decode c.req.cmd = .ok .crc16 := by
  refine ⟨rfl, by decide, ?_⟩
  obtain h | h : Config.completes 0 % 2 = 0 ∨ Config.completes 0 % 2 = 1 := by omega
  · exact ⟨⟨0, withIn 0x0001 digits⟩, congrArg _ h, by decide⟩
  · exact ⟨⟨1, withIn 0x0001 []⟩, congrArg _ h, by decide⟩

theorem witness_AlertPayloadBytes : (0 : Nat) < 256 ∧ (255 : Nat) < 256 := by decide

theorem witness_TypeClassification : profileP1.distinct = true := by decide

theorem witness_CrcErrorDetection : digits.length = (flipBit digits 8 7).length ∧ 8 < digits.length ∧ (7 : Nat) < 8 := by
  decide

/-- The longest payload PKT_ENCODE accepts and the shortest it does not. -/
theorem witness_PktEncodeCompletes :
    let r := withIn 0x0002 (zeros 65535)
    let q := withIn 0x0002 (zeros 65536)
    (oneCommand r).outstanding = ⟨0, r⟩ :: [] ∧ withinCapacity r.inp.length = true ∧ r.inp.length ≤ Config.maxPayload ∧
    (oneCommand q).outstanding = ⟨0, q⟩ :: [] ∧ withinCapacity q.inp.length = true ∧ Config.maxPayload < q.inp.length := by
  refine ⟨rfl, withinCapacity_of_le ?_, ?_, rfl, withinCapacity_of_le ?_, ?_⟩ <;> simp [withIn, Config.maxPayload]

/-- V-E1's response, which any engine gives. -/
theorem respond_E1 : (respond (.pktEncode true true) (Config.now 0) requestE1).out = some frameV1 := by decide +kernel

theorem witness_SinglePassEncodeIsEquivalent :
    (oneCommand requestE1).Serves requestE1 ∧
    Answers (.pktEncode true true) (oneCommand requestE1) (respond (.pktEncode true true) (Config.now 0) requestE1) ∧
    (respond (.pktEncode true true) (Config.now 0) requestE1).out = some frameV1 :=
  ⟨oneCommand_serves (by decide), oneCommand_answers _ (by decide), respond_E1⟩

theorem witness_TrailingBytesAreIgnored :
    let r := withIn 0x0003 frameV1
    let r' := withIn 0x0003 (frameV1 ++ [0xAA, 0xBB])
    (oneCommand r).Serves r ∧ Answers .pktDecode (oneCommand r) (respond .pktDecode (Config.now 0) r) ∧
    (respond .pktDecode (Config.now 0) r).status = .ok ∧ (oneCommand r').Serves r' ∧
    r'.inp = r.inp ++ [0xAA, 0xBB] :=
  ⟨oneCommand_serves (by decide), oneCommand_answers _ (by decide), by decide +kernel, oneCommand_serves (by decide), rfl⟩

/-- V-D8's frame: version 2, non-zero reserved bytes, no payload. And an unknown type: nine codes cannot be every byte. -/
theorem witness_DecodeAcceptsAnyVersionTypePriority :
    let reserved : Bytes := [0x01, 0x02, 0x03, 0x04, 0x05, 0x06, 0x07, 0x08, 0x09, 0x0A, 0x0B, 0x0C]
    let front : Bytes := [0x52, 0x4F, 0x41, 0x4D, 0x02, 0x02] ++ be16 1 ++ be16 2 ++ [1, 5] ++ be32 0x6553F100 ++
      be16 (BitVec.ofNat 16 0)
    let r := withIn 0x0003 (front ++ be16 0x9245 ++ reserved ++ [])
    (oneCommand r).Serves r ∧ reserved.length = 12 ∧ 0x9245 = crc16 (front ++ [0x00, 0x00] ++ reserved ++ []) ∧
    ∃ type : Byte, ∀ name, Config.typeCodes.code name ≠ type := by
  refine ⟨oneCommand_serves (by decide), rfl, by decide +kernel, ?_⟩
  by_contra hall
  push Not at hall
  have hsub : [0, 1, 2, 3, 4, 5, 6, 7, 8, 9] ⊆ Config.typeCodes.toList := by
    intro b _
    obtain ⟨name, rfl⟩ := hall b
    cases name <;> simp [TypeCodes.code, TypeCodes.toList]
  have h := (List.subperm_of_subset (by decide) hsub).length_le
  simp [TypeCodes.toList] at h

theorem witness_PacketRoundTrip :
    let r' := withIn 0x0003 (frameV1 ++ [0xAA])
    (oneCommand requestE1).Serves requestE1 ∧
    Answers (.pktEncode true true) (oneCommand requestE1) (respond (.pktEncode true true) (Config.now 0) requestE1) ∧
    (respond (.pktEncode true true) (Config.now 0) requestE1).out = some frameV1 ∧ (oneCommand r').Serves r' ∧
    r'.inp = frameV1 ++ [0xAA] :=
  ⟨oneCommand_serves (by decide), oneCommand_answers _ (by decide), respond_E1, oneCommand_serves (by decide), rfl⟩

/-- The parts of 0, 31, 32, 33 and 34 bytes of V1 (V-D10 to V-D14), one or two for each clause. -/
theorem witness_TruncatedFrames :
    ((oneCommand requestE1).Serves requestE1 ∧
      Answers (.pktEncode true true) (oneCommand requestE1) (respond (.pktEncode true true) (Config.now 0) requestE1) ∧
      (respond (.pktEncode true true) (Config.now 0) requestE1).out = some frameV1) ∧
    (∀ len, len ∈ [0, 31, 32, 33, 34] →
      (oneCommand (withIn 0x0003 (frameV1.take len))).Serves (withIn 0x0003 (frameV1.take len))) ∧
    (0 < 32 ∧ 31 < 32) ∧ (32 ≤ 32 ∧ 33 < 32 + requestE1.inp.length) ∧ 34 = 32 + requestE1.inp.length := by
  refine ⟨⟨oneCommand_serves (by decide), oneCommand_answers _ (by decide), respond_E1⟩, ?_, by decide, by decide, by decide⟩
  intro len _
  exact oneCommand_serves ((List.length_take_le' _ _).trans (by decide))

/-- Every clause of SingleBitFlips on V1: offsets 0 and 3; 4, 15, 18, 31, 32 and 33; 16 with a longer length (V-D5e)
and 17 with a shorter one (V-D5d). -/
theorem witness_SingleBitFlips :
    ((oneCommand requestE1).Serves requestE1 ∧
      Answers (.pktEncode true true) (oneCommand requestE1) (respond (.pktEncode true true) (Config.now 0) requestE1) ∧
      (respond (.pktEncode true true) (Config.now 0) requestE1).out = some frameV1) ∧
    (∀ k, k ∈ [0, 3, 4, 15, 16, 17, 18, 31, 32, 33] → k < 32 + requestE1.inp.length ∧
      (oneCommand (withIn 0x0003 (flipBit frameV1 k 1))).Serves (withIn 0x0003 (flipBit frameV1 k 1))) ∧
    (let g := flipBit frameV1 16 0; requestE1.inp.length < (rd16 (g.getD 16 0) (g.getD 17 0)).toNat) ∧
    (let g := flipBit frameV1 17 1; (rd16 (g.getD 16 0) (g.getD 17 0)).toNat < requestE1.inp.length) := by
  refine ⟨⟨oneCommand_serves (by decide), oneCommand_answers _ (by decide), respond_E1⟩, ?_, by decide, by decide⟩
  intro k hk
  refine ⟨?_, oneCommand_serves (by simp [withIn, flipBit, frameV1])⟩
  revert k
  decide

/-- The CRC a decode of `b` computes over the bytes its own length field covers. -/
def coveredCrc (b : Bytes) : Half :=
  crc16 (b.take 18 ++ [0x00, 0x00] ++ (b.drop 20).take 12 ++ (b.drop 32).take (rd16 (b.getD 16 0) (b.getD 17 0)).toNat)

/-- V-E1 with the payload 48 8B 3B, for which the CRC of the frame does not see 17.1 flipped (length 3 to 1). -/
def requestUndetected : Request := { requestE1 with inp := [0x48, 0x8B, 0x3B] }

/-- Both outcomes of a shorter length: V-D5d (stored 0x37EF, recomputed 0x03FF), and a frame whose shorter covered bytes
have its stored checksum. -/
theorem witness_SingleBitFlips_shorter :
    (let g := flipBit frameV1 17 1;
      coveredCrc g = 0x03FF ∧ rd16 (g.getD 18 0) (g.getD 19 0) = 0x37EF) ∧
    (oneCommand requestUndetected).Serves requestUndetected ∧
    Answers (.pktEncode true true) (oneCommand requestUndetected)
      (respond (.pktEncode true true) (Config.now 0) requestUndetected) ∧
    ∃ f, (respond (.pktEncode true true) (Config.now 0) requestUndetected).out = some f ∧
      (let g := flipBit f 17 1;
        (oneCommand (withIn 0x0003 g)).Serves (withIn 0x0003 g) ∧
        (rd16 (g.getD 16 0) (g.getD 17 0)).toNat < requestUndetected.inp.length ∧
        coveredCrc g = rd16 (g.getD 18 0) (g.getD 19 0)) := by
  refine ⟨by decide +kernel, oneCommand_serves (by decide), oneCommand_answers _ (by decide),
    frame 0x02 1 42 1 5 0x6553F100 [0x48, 0x8B, 0x3B], by decide +kernel, oneCommand_serves ?_, by decide +kernel,
    by decide +kernel⟩
  simp [withIn, flipBit, frame]

/-- The request of V-AE1. -/
def requestAE1 : Request :=
  { withIn 0x0006 [0x46, 0x49, 0x52, 0x45] with aSrc := 1, aDst := 0xFFFF, aClass := 9, aTone := 3 }

theorem witness_AlertEncodeIsPktEncode :
    let q : Request := { requestAE1 with
      aType := Config.typeCodes.code .alert
      aPri := 9
      inp := alertPayload 9 3 [0x46, 0x49, 0x52, 0x45] }
    (oneCommand requestAE1).Serves requestAE1 ∧
    Answers .alertEncode (oneCommand requestAE1) (respond .alertEncode (Config.now 0) requestAE1) ∧
    (oneCommand q).Serves q ∧ (oneCommand q).nowDraws = (oneCommand requestAE1).nowDraws ∧
    Answers (.pktEncode false false) (oneCommand q) (respond (.pktEncode false false) (Config.now 0) q) := by
  intro q
  have hq : q.inp.length ≤ 65567 := by simp [q]
  exact ⟨oneCommand_serves (by decide), oneCommand_answers _ (by decide), oneCommand_serves hq, rfl, oneCommand_answers _ hq⟩

/-- Every clause of ALERT_DECODE's completion: another type, a payload of 257 bytes, an invalid message and a valid one. -/
theorem witness_AlertDecodeCompletes :
    (∃ t : Byte, t ≠ Config.typeCodes.code .alert) ∧ (zeros 257).length ≠ 258 ∧
    (alertPayload 1 0 [0xFF]).length = 258 ∧ utf8Valid (rstrip0 [0xFF]) = false ∧ utf8Valid (rstrip0 (zeros 256)) = true := by
  refine ⟨⟨Config.typeCodes.code .alert + 1, by simp⟩, by simp, by simp, by decide, by rw [rstrip0_zeros]; rfl⟩

/-- Both outcomes: the message "FIRE", and a lone lead byte. -/
theorem witness_AlertRoundTrip (m : Bytes) (hm : m = [0x46, 0x49, 0x52, 0x45] ∨ m = [0xC3]) :
    let r := { requestAE1 with inp := m }
    let resp := respond .alertEncode (Config.now 0) r
    ∃ f, resp.out = some f ∧ (oneCommand r).Serves r ∧ Answers .alertEncode (oneCommand r) resp ∧
      (oneCommand (withIn 0x0003 f)).Serves (withIn 0x0003 f) ∧
      (oneCommand { withIn 0x0007 (alertPayload 9 3 m) with aType := Config.typeCodes.code .alert }).Serves
        { withIn 0x0007 (alertPayload 9 3 m) with aType := Config.typeCodes.code .alert } := by
  have h : m.length ≤ 65567 := by obtain rfl | rfl := hm <;> decide
  exact ⟨_, rfl, oneCommand_serves h, oneCommand_answers _ h, oneCommand_serves (by simp [withIn, frame]),
    oneCommand_serves (by simp [withIn])⟩

set_option maxRecDepth 1000000 in
theorem witness_AlertRoundTrip_texts :
    utf8Valid (rstrip0 (msg256 [0x46, 0x49, 0x52, 0x45])) = true ∧ utf8Valid (rstrip0 (msg256 [0xC3])) = false := by
  decide +kernel

set_option maxRecDepth 1000000 in
/-- A message of exactly 256 bytes, and one of 300 ASCII bytes. -/
theorem witness_AlertMessageRecovered :
    (let m : Bytes := List.replicate 254 0x41 ++ [0xC3, 0xA9];
      m.length ≤ 256 ∧ utf8Valid m = true ∧ m.getLast? ≠ some 0x00) ∧
    ∀ b ∈ List.replicate 300 (0x41 : Byte), 0x00 < b ∧ b < 0x80 := by
  refine ⟨by decide +kernel, fun b hb => ?_⟩
  rw [List.eq_of_mem_replicate hb]
  decide

/-- A frame without payload, of any type. -/
def emptyFrame (t : Byte) : Bytes := frame t 1 2 1 5 0 []

/-- It decodes with OK, with its type, the kind of that type and an empty `OUT`. -/
theorem respond_emptyFrame (t : Byte) :
    let p := respond .pktDecode (Config.now 0) (withIn 0x0003 (emptyFrame t))
    p.status = .ok ∧ p.rType = some t ∧ p.rTkind = some (tkindByte Config.typeCodes t) ∧ p.out = some [] := by
  simp only [respond, pktDecodeResponse, withIn, emptyFrame, frame, headerFields_hdr, receivedChecksum, zeroedHeader_hdr,
    frameChecksum]
  simp [slice, Config.params]

theorem tkindByte_alert : tkindByte Config.typeCodes (Config.typeCodes.code .alert) = 5 := by
  have h : Config.typeCodes.distinct = true := by
    unfold Config.typeCodes
    split
    · assumption
    · decide
  generalize Config.typeCodes = t at h ⊢
  have h' : t.toList.Nodup := by simpa only [TypeCodes.distinct, decide_eq_true_eq] using h
  simp only [TypeCodes.toList, List.nodup_cons, List.mem_cons, not_or] at h'
  simp [tkindByte, tkind, packetTypes, TypeCodes.code, nameIndex, beq_eq_decide, h']

theorem tkindByte_beacon : tkindByte Config.typeCodes (Config.typeCodes.code .beacon) = 0 := by
  simp [tkindByte, tkind, packetTypes, nameIndex]

/-- The hypotheses of DemultiplexByType, for a frame of type ALERT and for one that is not. -/
theorem witness_DemultiplexByType (t : Byte) :
    let r := withIn 0x0003 (emptyFrame t)
    let packet := respond .pktDecode (Config.now 0) r
    let r' := { withIn 0x0007 [] with aType := t }
    (oneCommand r).Serves r ∧ Answers .pktDecode (oneCommand r) packet ∧ packet.status = .ok ∧ (oneCommand r').Serves r' ∧
    packet.rType = some r'.aType ∧ packet.out = some r'.inp ∧
    (t = Config.typeCodes.code .alert → packet.rTkind = some 5) ∧
    (t = Config.typeCodes.code .beacon → packet.rTkind ≠ some 5) := by
  intro r packet r'
  obtain ⟨hok, ht, hk, hout⟩ := respond_emptyFrame t
  have h : r.inp.length ≤ 65567 := by simp [r, withIn, emptyFrame, frame]
  refine ⟨oneCommand_serves h, oneCommand_answers _ h, hok, oneCommand_serves (by simp [r', withIn]), ht, hout, ?_, ?_⟩
  · rintro rfl; rw [show packet.rTkind = _ from hk, tkindByte_alert]
  · rintro rfl; rw [show packet.rTkind = _ from hk, tkindByte_beacon]; decide

/-- A failed decode (V-D10, an empty `IN`); a decoded frame of type ALERT, followed by its second command; a decoded
frame of another type. -/
theorem witness_FrameAlertSequence :
    (let r := withIn 0x0003 [];
      (oneCommand r).Serves r ∧ Answers .pktDecode (oneCommand r) (respond .pktDecode (Config.now 0) r) ∧
      (respond .pktDecode (Config.now 0) r).status ≠ .ok) ∧
    (let r := withIn 0x0003 (emptyFrame (Config.typeCodes.code .alert));
      (oneCommand r).Serves r ∧ Answers .pktDecode (oneCommand r) (respond .pktDecode (Config.now 0) r) ∧
      (respond .pktDecode (Config.now 0) r).rTkind = some 5) ∧
    (let r' := { withIn 0x0007 [] with aType := Config.typeCodes.code .alert }; (oneCommand r').Serves r') ∧
    (let r := withIn 0x0003 (emptyFrame (Config.typeCodes.code .beacon));
      (oneCommand r).Serves r ∧ Answers .pktDecode (oneCommand r) (respond .pktDecode (Config.now 0) r) ∧
      (respond .pktDecode (Config.now 0) r).rTkind ≠ some 5) := by
  obtain ⟨h1, h2, -, h3, -, -, h4, -⟩ := witness_DemultiplexByType (Config.typeCodes.code .alert)
  obtain ⟨g1, g2, -, -, -, -, -, g4⟩ := witness_DemultiplexByType (Config.typeCodes.code .beacon)
  exact ⟨⟨oneCommand_serves (by decide), oneCommand_answers _ (by decide), by decide⟩, ⟨h1, h2, h4 rfl⟩, h3, g1, g2, g4 rfl⟩

theorem witness_ResponseFieldsWritten :
    (oneCommand requestAE1).Serves requestAE1 ∧
    Answers .alertEncode (oneCommand requestAE1) (respond .alertEncode (Config.now 0) requestAE1) :=
  ⟨oneCommand_serves (by decide), oneCommand_answers _ (by decide)⟩

/-- Two requests that agree on what PKT_ENCODE with `TTLP` = `TSP` = 0 reads and differ elsewhere (V-E3), served in two
different states with the same next `NOW` draw. -/
theorem witness_ResponseDependsOnlyOnOperands :
    let r := { requestE1 with cmd := 0x0002 }
    let r' := { r with aTtl := 99, aTs := 7, aNode := 3 }
    let s' := { oneCommand r' with responses := [⟨7, { status := .ok }⟩], issued := 9 }
    (oneCommand r).Serves r ∧ s'.Serves r' ∧ agreeOnOperands (.pktEncode false false) r r' ∧
    readsNow (.pktEncode false false) r = true ∧ Config.now (oneCommand r).nowDraws = Config.now s'.nowDraws ∧
    Answers (.pktEncode false false) (oneCommand r) (respond (.pktEncode false false) (Config.now 0) r) :=
  ⟨oneCommand_serves (by decide), ⟨⟨0, [], rfl⟩, withinCapacity_of_le (by decide)⟩,
    ⟨rfl, rfl, rfl, rfl, rfl, by decide, by decide⟩, by decide, rfl, oneCommand_answers _ (by decide)⟩

theorem witness_CompletionOrderIsFree :
    let s := twoCommands (withIn 0x0001 digits) (withIn 0x0004 [])
    s.outstanding = ⟨0, withIn 0x0001 digits⟩ :: ⟨1, withIn 0x0004 []⟩ :: [] ∧ withinCapacity digits.length = true ∧
    withinCapacity 0 = true ∧ decode 0x0001 = .ok .crc16 ∧ decode 0x0004 = .ok .addressed ∧
    readsNow .crc16 (withIn 0x0001 digits) = false ∧ readsNow .addressed (withIn 0x0004 []) = false :=
  ⟨rfl, by decide, by decide, by decide, by decide, rfl, rfl⟩

theorem witness_OverCapacityIsRefused :
    { State.reset with agenda := [.issue requestE1] }.agenda = .issue requestE1 :: [] ∧ (65567 : Nat) ≤ 65567 :=
  ⟨rfl, le_refl _⟩

theorem witness_IssueCapturesTheRequest :
    { State.reset with agenda := [.issue requestE1] }.agenda = .issue requestE1 :: [] ∧
    withinCapacity requestE1.inp.length = true :=
  ⟨rfl, by decide⟩

/-- The response of command 0 is there, with `R_CRC` and without `OUT`. -/
def answeredCrc : State := { State.reset with responses := [⟨0, { status := .ok, rCrc := some 0x29B1 }⟩], issued := 1 }

/-- A field with a value, a field the command did not write, and a response that is not there. -/
theorem witness_ReadingAFieldWithoutValueFaults :
    ({ answeredCrc with agenda := [.read 0 .rCrc] }.agenda = .read 0 .rCrc :: [] ∧
      (answeredCrc.responseOf 0).bind (·.read .rCrc) = some (.half 0x29B1)) ∧
    ({ answeredCrc with agenda := [.read 0 .out] }.agenda = .read 0 .out :: [] ∧
      ∃ resp, answeredCrc.responseOf 0 = some resp ∧ resp.has .out = false) ∧
    ({ answeredCrc with agenda := [.read 1 .status] }.agenda = .read 1 .status :: [] ∧ answeredCrc.responseOf 1 = none) :=
  ⟨⟨rfl, by decide⟩, ⟨rfl, _, rfl, by decide⟩, rfl, by decide⟩

/-- After an ADDRESSED: `R_BOOL` holds a value, `OUT` does not. -/
theorem witness_UnwrittenFieldsHoldNoValue :
    let t : State := { State.reset with responses := [⟨0, { status := .ok, rBool := some true }⟩], issued := 1 }
    (oneCommand (withIn 0x0004 [])).outstanding = ⟨0, withIn 0x0004 []⟩ :: [] ∧
    (oneCommand (withIn 0x0004 [])).responseOf 0 = none ∧ exec .addressed (oneCommand (withIn 0x0004 [])) = .next t ∧
    t.responseOf 0 = some { status := .ok, rBool := some true } ∧ Field.rBool ∈ writtenOnOk .addressed ∧
    Field.out ∉ writtenOnOk .addressed :=
  ⟨rfl, rfl, rfl, rfl, by decide, by decide⟩

theorem witness_ResetLeavesTheEngineIdle :
    { oneCommand requestE1 with agenda := [.reset] }.agenda = .reset :: [] := rfl

theorem oneCommand_inv {r : Request} (h : withinCapacity r.inp.length = true) (ms : List Move) :
    { oneCommand r with agenda := ms }.Inv where
  tagsIssued := by simp [State.tags, oneCommand, State.reset]
  tagsDistinct := by simp [State.tags, oneCommand, State.reset]
  requestsFit := by simp [oneCommand, h]
  responsesPossible := by simp [oneCommand, State.reset]

theorem witness_AbandonedCommandIsNeverAnswered :
    (let s : State := { oneCommand requestE1 with agenda := [.reset] };
      s.Inv ∧ s.agenda = .reset :: [] ∧ ⟨0, requestE1⟩ ∈ s.outstanding ∧
        step s = .next (resetEngine (oneCommand requestE1))) ∧
    ((resetEngine (oneCommand requestE1)).lost 0 ∧
      step { resetEngine (oneCommand requestE1) with agenda := [.reset] } =
        .next (resetEngine (resetEngine (oneCommand requestE1)))) :=
  ⟨⟨oneCommand_inv (by decide) _, rfl, by decide, rfl⟩, ⟨by decide, by decide, by decide⟩, rfl⟩

theorem witness_StepKeepsInvariant :
    (oneCommand (withIn 0x0004 [])).Inv ∧
    step (oneCommand (withIn 0x0004 [])) =
      .next { State.reset with responses := [⟨0, { status := .ok, rBool := some true }⟩], issued := 1 } :=
  ⟨oneCommand_inv (by decide) [], by rfl⟩

theorem witness_EveryIssuedCommandCompletes :
    let s := twoCommands requestE1 requestAE1
    s.agenda = [] ∧ ∀ c ∈ s.outstanding, withinCapacity c.req.inp.length = true := by
  refine ⟨rfl, ?_⟩
  simp only [twoCommands, List.forall_mem_cons]
  exact ⟨by decide, by decide, by simp⟩

/-- A run that ends normally; one with a command outstanding that is reset; a state after such a reset and a step from
it; program P5's command. -/
theorem witness_NormalEndMeansEveryCommandEnded :
    ((oneCommand requestE1).agenda = [] ∧ (oneCommand requestE1).abandoned = [] ∧
      ∀ c ∈ (oneCommand requestE1).outstanding, withinCapacity c.req.inp.length = true) ∧
    ({ oneCommand requestE1 with agenda := [.reset] }.agenda = .reset :: [] ∧ (oneCommand requestE1).outstanding ≠ []) ∧
    ((resetEngine (oneCommand requestE1)).abandoned ≠ [] ∧
      runSteps 1 (resetEngine (oneCommand requestE1)) = .next (resetEngine (oneCommand requestE1))) ∧
    (oneCommand requestE1).outstanding = [⟨0, requestE1⟩] ∧ withinCapacity requestE1.inp.length = true :=
  ⟨⟨rfl, rfl, by simp only [oneCommand, List.forall_mem_singleton]; decide⟩, ⟨rfl, by decide⟩, ⟨by decide, rfl⟩, rfl, by decide⟩

end Sys2Proof.Machine
end

section
/-! PROOFS of the family `00_scope.md`: this engine's parameters are legal (R5), and the values of the big-endian
fields (R9). -/

namespace Sys2Proof.Machine

/-- R80: this engine's type codes are an injective map, whether the free value stands for one or profile P1 does. -/
theorem typeCodes_distinct : Config.typeCodes.distinct = true := by
  unfold Config.typeCodes
  split
  · assumption
  · decide

/-- R5, R111: an injective map and the payload bound 65535 are legal parameters. -/
theorem params_wf : Config.params.wf = true := by
  simp [Params.wf, Config.params, typeCodes_distinct, Config.maxPayload]

/-- R24: the longest input every engine must take fits this engine's `BUF_CAP`. -/
theorem least_le_bufCap {cap : Nat} (h : Config.bufCap = some cap) : 65567 ≤ cap :=
  (withinCapacity_iff 65567).mp (withinCapacity_of_le le_rfl) cap h

/-- R9: a byte written after a bit string is its next base-256 digit. -/
theorem toNat_append_byte {n : Nat} (x : BitVec n) (b : Byte) : (x ++ b).toNat = 256 * x.toNat + b.toNat := by
  rw [BitVec.toNat_append, ← Nat.shiftLeft_add_eq_or_of_lt b.isLt, Nat.shiftLeft_eq, Nat.mul_comm]

theorem rd16_toNat (hi lo : Byte) : (rd16 hi lo).toNat = 256 * hi.toNat + lo.toNat :=
  toNat_append_byte hi lo

theorem rd32_toNat (b3 b2 b1 b0 : Byte) :
    (rd32 b3 b2 b1 b0).toNat = 16777216 * b3.toNat + 65536 * b2.toNat + 256 * b1.toNat + b0.toNat := by
  have digits : (rd32 b3 b2 b1 b0).toNat = 256 * (256 * (256 * b3.toNat + b2.toNat) + b1.toNat) + b0.toNat := by
    simp only [rd32, toNat_append_byte]
  omega

/-- R9: the bytes before the last one are read with that one shifted out. -/
theorem extractByte_append_byte {n : Nat} (x : BitVec n) (b : Byte) (k : Nat) :
    (x ++ b).extractLsb' (k + 8) 8 = x.extractLsb' k 8 := by
  rw [BitVec.extractLsb'_append_eq_of_le (Nat.le_add_left 8 k), Nat.add_sub_cancel]

/-- R9: `be16` writes back the bytes `rd16` read. -/
@[simp] theorem be16_rd16 (hi lo : Byte) : be16 (rd16 hi lo) = [hi, lo] := by
  rw [be16, rd16, BitVec.extractLsb'_append_eq_left, BitVec.extractLsb'_append_eq_right]

/-- R9: `be32` writes back the bytes `rd32` read: each is the last byte once those after it are shifted out. -/
@[simp] theorem be32_rd32 (b3 b2 b1 b0 : Byte) : be32 (rd32 b3 b2 b1 b0) = [b3, b2, b1, b0] := by
  simp only [be32, rd32, extractByte_append_byte, BitVec.extractLsb'_append_eq_right (w' := 8),
    BitVec.extractLsb'_eq_self]

/-- Settles O6: the type codes are distinct either way the free value falls, and a bounded capacity takes 65567 bytes. -/
theorem parametersAreLegal : Obligations.ParametersAreLegal :=
  ⟨params_wf, rfl, fun _ => least_le_bufCap⟩

/-- Settles O7: the values digit by digit, and the bytes by shifting them out again. -/
theorem bigEndianFields : Obligations.BigEndianFields :=
  ⟨fun hi lo => ⟨rd16_toNat hi lo, be16_rd16 hi lo⟩,
    fun b3 b2 b1 b0 => ⟨rd32_toNat b3 b2 b1 b0, be32_rd32 b3 b2 b1 b0⟩⟩

end Sys2Proof.Machine
end

section
/-! PROOFS of the family `10_state.md`: what a command answers (R22, R23, R25), what it changes (R20, R26, R27), the
requester's reads and requests over capacity (R23, R24), and the invariant of every run (R20, R22 to R24, R34). -/

namespace Sys2Proof.Machine

/-! ## What each command answers: its row of R22 and R90, and an `OUT` within R24's bound -/

/-- The rows of R22, R90 and R24 for command `i`, as a response to request `r` meets them. -/
structure Response.MeetsRow (i : Instr) (r : Request) (resp : Response) : Prop where
  status : resp.status ∈ mayReport i
  fields : resp.writesOnly i
  outFits : ∀ b, resp.out = some b → b.length ≤ 65567 ∨ b.length ≤ r.inp.length

/-- R23: a failure writes `STATUS` alone. -/
@[simp] theorem failed_has (e : Status) (f : Field) : (Response.failed e).has f = true ↔ f = .status := by
  cases f <;> simp [Response.failed, Response.has, Response.read]

theorem failed_writesOnly (i : Instr) {e : Status} (he : e ≠ .ok) : (Response.failed e).writesOnly i := by
  intro f
  simp [show (Response.failed e).status = e from rfl, he]

theorem failed_meetsRow {i : Instr} (r : Request) {e : Status} (hrow : e ∈ mayReport i) (he : e ≠ .ok) :
    (Response.failed e).MeetsRow i r :=
  ⟨hrow, failed_writesOnly i he, nofun⟩

theorem ok_mem_mayReport (i : Instr) : .ok ∈ mayReport i := by
  cases i <;> simp [mayReport]

/-- R22: on OK it is enough to see, field by field, that `STATUS` and the fields listed for the command have a value. -/
theorem meetsRow_of_ok {i : Instr} {r : Request} {resp : Response} (hok : resp.status = .ok)
    (hhas : ∀ f, resp.has f = decide (f ∈ .status :: writtenOnOk i))
    (hout : ∀ b, resp.out = some b → b.length ≤ 65567 ∨ b.length ≤ r.inp.length) : resp.MeetsRow i r where
  status := hok ▸ ok_mem_mayReport i
  fields f := by simp [hhas, hok]
  outFits := hout

theorem frame_length (t : Byte) (s d : Half) (p ttl : Byte) (ts : Word) (payload : Bytes) :
    (frame t s d p ttl ts payload).length = 32 + payload.length := by
  simp [frame]

theorem slice_length_le (b : Bytes) (i j : Nat) : (slice b i j).length ≤ b.length :=
  (List.length_take_le' _ _).trans (List.drop_sublist i b).length_le

/-- R148: stripping trailing nulls never lengthens a sequence. -/
theorem rstrip0_length_le (b : Bytes) : (rstrip0 b).length ≤ b.length := by
  induction b with
  | nil => simp
  | cons x xs ih =>
    cases hx : rstrip0 xs with
    | nil => simp only [rstrip0, hx]; split <;> simp
    | cons y ys => simpa [rstrip0, hx] using ih

theorem crc16Response_meetsRow (r : Request) : (crc16Response r).MeetsRow .crc16 r :=
  meetsRow_of_ok rfl (fun f => by cases f <;> rfl) nofun

/-- R111, R112: the frame of the longest payload is 32 + 65535 bytes. -/
theorem pktEncodeResponse_meetsRow (ttlp tsp : Bool) (now : Word) (r : Request) :
    (pktEncodeResponse Config.params ttlp tsp now r).MeetsRow (.pktEncode ttlp tsp) r := by
  unfold pktEncodeResponse
  split
  · exact failed_meetsRow r (by simp [mayReport]) nofun
  next hlen =>
    have payloadFits : r.inp.length ≤ 65535 := Nat.le_of_not_lt hlen
    refine meetsRow_of_ok rfl (fun f => by cases f <;> rfl) ?_
    rintro b ⟨⟩
    rw [frame_length]
    omega

/-- R115: each failed check has its status, and `OUT` is a part of `IN`. -/
theorem pktDecodeResponse_meetsRow (p : Params) (r : Request) : (pktDecodeResponse p r).MeetsRow .pktDecode r := by
  unfold pktDecodeResponse
  split
  · exact failed_meetsRow r (by decide) nofun
  · split
    · exact failed_meetsRow r (by decide) nofun
    split
    · exact failed_meetsRow r (by decide) nofun
    split
    · exact failed_meetsRow r (by decide) nofun
    · refine meetsRow_of_ok rfl (fun f => by cases f <;> rfl) ?_
      rintro b ⟨⟩
      exact .inr (slice_length_le _ _ _)

theorem addressedResponse_meetsRow (r : Request) : (addressedResponse r).MeetsRow .addressed r :=
  meetsRow_of_ok rfl (fun f => by cases f <;> rfl) nofun

theorem alertPriorityResponse_meetsRow (r : Request) : (alertPriorityResponse r).MeetsRow .alertPriority r :=
  meetsRow_of_ok rfl (fun f => by cases f <;> rfl) nofun

/-- R142: the frame of an alert is 32 + 258 bytes. -/
theorem alertEncodeResponse_meetsRow (p : Params) (now : Word) (r : Request) :
    (alertEncodeResponse p now r).MeetsRow .alertEncode r := by
  refine meetsRow_of_ok rfl (fun f => by cases f <;> rfl) ?_
  rintro b ⟨⟩
  simp [frame_length]

/-- R147: each failed check has its status, and `OUT` is a part of `IN`. -/
theorem alertDecodeResponse_meetsRow (p : Params) (r : Request) : (alertDecodeResponse p r).MeetsRow .alertDecode r := by
  unfold alertDecodeResponse
  split
  · exact failed_meetsRow r (by decide) nofun
  split
  · exact failed_meetsRow r (by decide) nofun
  split
  next cl tn field hin =>
    split
    · refine meetsRow_of_ok rfl (fun f => by cases f <;> rfl) ?_
      rintro b ⟨⟩
      have := rstrip0_length_le field
      simp only [hin, List.length_cons]
      omega
    · exact failed_meetsRow r (by decide) nofun
  · exact failed_meetsRow r (by decide) nofun

/-- R22, R23, R24, R90: whatever a command answers, it meets the command's row. -/
theorem respond_meetsRow (i : Instr) (now : Word) (r : Request) : (respond i now r).MeetsRow i r := by
  cases i with
  | crc16 => exact crc16Response_meetsRow r
  | pktEncode ttlp tsp => exact pktEncodeResponse_meetsRow ttlp tsp now r
  | pktDecode => exact pktDecodeResponse_meetsRow _ r
  | addressed => exact addressedResponse_meetsRow r
  | alertPriority => exact alertPriorityResponse_meetsRow r
  | alertEncode => exact alertEncodeResponse_meetsRow _ now r
  | alertDecode => exact alertDecodeResponse_meetsRow _ r

/-- R24: everything the engine answers to a request within capacity is a possible response. -/
theorem engineResponse_possible {r : Request} {resp : Response} (h : engineResponse r resp)
    (hfit : withinCapacity r.inp.length = true) : resp.possible := by
  obtain ⟨i, now, rfl⟩ | rfl := h
  · obtain ⟨-, fields, outFits⟩ := respond_meetsRow i now r
    refine ⟨⟨i, fields⟩, fun b hb => ?_⟩
    obtain hle | hle := outFits b hb
    · exact withinCapacity_of_le hle
    · exact withinCapacity_mono hfit hle
  · exact ⟨⟨.crc16, failed_writesOnly _ nofun⟩, nofun⟩

/-! ## The invariant -/

/-- The invariant speaks of tags, requests and responses only: no new tag may come up, and none come up twice. -/
theorem State.Inv.of_tags_subperm {s t : State} (h : s.Inv) (htags : t.tags.Subperm s.tags) (hissued : t.issued = s.issued)
    (hfit : ∀ c ∈ t.outstanding, withinCapacity c.req.inp.length = true) (hresp : ∀ d ∈ t.responses, d.resp.possible) :
    t.Inv where
  tagsIssued tag ht := hissued ▸ h.tagsIssued tag (htags.subset ht)
  tagsDistinct := by
    obtain ⟨tags, perm, sub⟩ := htags
    exact perm.nodup_iff.mp (h.tagsDistinct.sublist sub)
  requestsFit := hfit
  responsesPossible := hresp

/-- The agenda, the last read and the counts of draws and of free choices are no part of the invariant. -/
theorem State.Inv.with_bookkeeping {s : State} (h : s.Inv) (ms : List Move) (v : Option FieldValue) (draws picks : Nat) :
    State.Inv { s with agenda := ms, lastRead := v, nowDraws := draws, picks := picks } :=
  ⟨h.tagsIssued, h.tagsDistinct, h.requestsFit, h.responsesPossible⟩

/-- R20, R22: an ended command's tag moves from the outstanding commands to the responses. -/
theorem State.answer_tags_perm {s : State} {c : Command} {cs : List Command} (resp : Response)
    (h : (c :: cs).Perm s.outstanding) : (s.answer c cs resp).tags.Perm s.tags := by
  have moved : (cs.map (·.tag) ++ (s.responses.map (·.tag) ++ [c.tag])).Perm
      ((c :: cs).map (·.tag) ++ s.responses.map (·.tag)) := by
    rw [← List.append_assoc]
    exact List.perm_append_singleton _ _
  simpa [State.tags] using (moved.trans ((h.map _).append_right _)).append_right _

theorem answer_keeps_inv {s : State} {c : Command} {cs : List Command} {resp : Response} (h : s.Inv)
    (hperm : (c :: cs).Perm s.outstanding) (hresp : resp.possible) : (s.answer c cs resp).Inv := by
  refine h.of_tags_subperm (State.answer_tags_perm resp hperm).subperm rfl ?_ ?_
  · intro d hd
    exact h.requestsFit d (hperm.subset (List.mem_cons_of_mem c hd))
  · simpa [or_imp, forall_and] using And.intro h.responsesPossible hresp

/-- R20: an issued request brings in the next tag. -/
theorem State.issue_tags_perm (s : State) (r : Request) :
    (State.tags { s with outstanding := s.outstanding ++ [⟨s.issued, r⟩], issued := s.issued + 1 }).Perm
      (s.issued :: s.tags) := by
  simp only [State.tags, List.map_append, List.map_singleton, List.append_assoc]
  exact List.perm_middle

/-- R20, R24: an issued request is within capacity, and no command in use has its tag. -/
theorem issue_keeps_inv {s t : State} {r : Request} (h : s.Inv) (hi : issue r s = .next t) : t.Inv := by
  obtain ⟨hfit, rfl⟩ := issue_next hi
  have tags := s.issue_tags_perm r
  have fresh : s.issued ∉ s.tags := fun hmem => lt_irrefl _ (h.tagsIssued _ hmem)
  refine ⟨fun tag ht => ?_, ?_, ?_, h.responsesPossible⟩
  · obtain rfl | hold := List.mem_cons.mp (tags.subset ht)
    · exact Nat.lt_succ_self _
    · exact Nat.lt_succ_of_lt (h.tagsIssued tag hold)
  · exact tags.nodup_iff.mpr (List.nodup_cons.mpr ⟨fresh, h.tagsDistinct⟩)
  · simpa [or_imp, forall_and] using And.intro h.requestsFit hfit

/-- R190, R191: a reset abandons the outstanding commands and takes the responses back. -/
theorem resetEngine_keeps_inv {s : State} (h : s.Inv) : (resetEngine s).Inv := by
  refine h.of_tags_subperm ?_ rfl (by simp) (by simp)
  have swap : (resetEngine s).tags.Perm (s.outstanding.map (·.tag) ++ s.abandoned.map (·.tag)) := by
    simpa [State.tags] using List.perm_append_comm
  have drop : (s.outstanding.map (·.tag) ++ s.abandoned.map (·.tag)).Sublist s.tags := by
    simp [State.tags]
  exact swap.subperm.trans drop.subperm

/-- R20, R59: the engine's turn ends one outstanding command, or does nothing. -/
theorem engineTurn_keeps_inv {s t : State} {k : Nat} (h : s.Inv) (ht : engineTurn exec k s = .next t) : t.Inv := by
  obtain ⟨-, rfl⟩ | ⟨c, resp, draws, hc, hfit, hresp, rfl⟩ := engineTurn_next ht
  · exact h
  · obtain ⟨hk, rfl⟩ := List.getElem?_eq_some_iff.mp hc
    exact answer_keeps_inv (h.with_bookkeeping s.agenda s.lastRead draws s.picks) (List.getElem_cons_eraseIdx_perm hk)
      (engineResponse_possible hresp hfit)

theorem step_keeps_inv {s t : State} (h : s.Inv) (hs : step s = .next t) : t.Inv := by
  have moved (ms : List Move) : State.Inv { s with agenda := ms } := h.with_bookkeeping ms s.lastRead s.nowDraws s.picks
  obtain ⟨r, ms, -, hi⟩ | ⟨k, ms, -, he⟩ | ⟨ms, -, rfl⟩ | ⟨tag, f, ms, -, hr⟩ | ⟨-, k, p, he⟩ := step_next hs
  · exact issue_keeps_inv (moved ms) hi
  · exact engineTurn_keeps_inv (moved ms) he
  · exact resetEngine_keeps_inv (moved ms)
  · obtain ⟨v, rfl⟩ := readField_next hr
    exact h.with_bookkeeping ms (some v) s.nowDraws s.picks
  · exact engineTurn_keeps_inv (h.with_bookkeeping s.agenda s.lastRead s.nowDraws p) he

/-- Settles O47: each move a step can take keeps the invariant, and every response of the engine meets its command's row. -/
theorem stepKeepsInvariant : Obligations.StepKeepsInvariant := fun _ _ => step_keeps_inv

/-- Settles O46: nothing is outstanding, answered or abandoned at reset. -/
theorem invariantHoldsAtReset : Obligations.InvariantHoldsAtReset where
  tagsIssued := by simp [State.tags, State.reset]
  tagsDistinct := by simp [State.tags, State.reset]
  requestsFit := by simp [State.reset]
  responsesPossible := by simp [State.reset]

/-! ## What a command answers and changes -/

/-- Settles O35: the answer is the response function's value, which meets the command's row. -/
theorem responseFieldsWritten : Obligations.ResponseFieldsWritten := by
  intro i s r resp hs ha
  obtain rfl := (answers_iff i hs resp).mp ha
  obtain ⟨status, fields, -⟩ := respond_meetsRow i (Config.now s.nowDraws) r
  exact ⟨status, fields⟩

/-- Settles O36: the response is the response function's value on the next draw. -/
theorem commandFrame : Obligations.CommandFrame := fun i _ _ _ h hfit => ⟨_, exec_cons i h hfit⟩

/-- R112: a supplied operand stands in for the default or the draw, which then has no effect. -/
theorem pktEncodeResponse_congr {ttlp tsp : Bool} {now now' : Word} {r r' : Request}
    (h : agreeOnOperands (.pktEncode ttlp tsp) r r')
    (hnow : readsNow (.pktEncode ttlp tsp) r = true → now = now') :
    pktEncodeResponse Config.params ttlp tsp now r = pktEncodeResponse Config.params ttlp tsp now' r' := by
  obtain ⟨hin, htype, hsrc, hdst, hpri, httl, hts⟩ := h
  simp only [pktEncodeResponse, ← hin, ← htype, ← hsrc, ← hdst, ← hpri]
  split
  · rfl
  next hlen =>
    have ttl : (if ttlp then r.aTtl else defaultTtl) = if ttlp then r'.aTtl else defaultTtl := by
      split
      · exact httl ‹_›
      · rfl
    have ts : (if tsp then r.aTs else now) = if tsp then r'.aTs else now' := by
      split
      · exact hts ‹_›
      next htsp => exact hnow (by simpa [readsNow, htsp, Config.params] using Nat.le_of_not_lt hlen)
    simp only [ttl, ts]

/-- R25: the response function reads the request fields of R21's row, and the draw where R27 says so. -/
theorem respond_congr {i : Instr} {now now' : Word} {r r' : Request} (h : agreeOnOperands i r r')
    (hnow : readsNow i r = true → now = now') : respond i now r = respond i now' r' := by
  cases i with
  | crc16 =>
    have hin : r.inp = r'.inp := h
    simp only [respond, crc16Response, hin]
  | pktEncode ttlp tsp => exact pktEncodeResponse_congr h hnow
  | pktDecode =>
    have hin : r.inp = r'.inp := h
    simp only [respond, pktDecodeResponse, hin]
  | addressed =>
    obtain ⟨hdst, hnode⟩ := h
    simp only [respond, addressedResponse, hdst, hnode]
  | alertPriority =>
    have hclass : r.aClass = r'.aClass := h
    simp only [respond, alertPriorityResponse, hclass]
  | alertEncode =>
    obtain ⟨hin, hsrc, hdst, hclass, htone⟩ := h
    simp only [respond, alertEncodeResponse, hnow rfl, hin, hsrc, hdst, hclass, htone]
  | alertDecode =>
    obtain ⟨hin, htype⟩ := h
    simp only [respond, alertDecodeResponse, hin, htype]

/-- Settles O37: both answers are the response function's value, on operands and a draw that it cannot tell apart. -/
theorem responseDependsOnlyOnOperands : Obligations.ResponseDependsOnlyOnOperands := by
  intro i s s' r r' resp hs hs' hops hnow ha
  rw [answers_iff i hs] at ha
  rw [answers_iff i hs', ha, respond_congr hops hnow]

/-! ## Which command a step runs -/

theorem serve_decoded (run : Instr → State → Host.Outcome State Fault Refusal) {s : State} {c : Command}
    {cs : List Command} {i : Instr} (h : s.outstanding = c :: cs) (hd : decode c.req.cmd = .ok i) :
    serve run s = run i s := by
  rw [serve_cons run h, hd]

/-- Settles O5: each form of the engine's turn serves the named command, which is decoded and run. -/
theorem stepRunsTheDecodedCommand : Obligations.StepRunsTheDecodedCommand := by
  intro s i
  refine ⟨fun k ms c ha hc hd => ?_, fun c ha ho hd => ?_, ?_⟩
  · rw [step_engine ha hc, serve_decoded exec rfl hd]
  · rw [step_free_one ha ho, serve_decoded exec ho hd]
  · rintro _ c ha hn rfl hc hd
    rw [step_free_several ha hn hc, serve_decoded exec rfl hd]

/-! ## Requests over capacity -/

theorem issue_refused_iff (r : Request) (s : State) :
    issue r s = .refused .inputOverCapacity ↔ withinCapacity r.inp.length = false := by
  cases hfit : withinCapacity r.inp.length <;> simp [issue, hfit]

theorem exec_refused_iff (i : Instr) {s : State} {c : Command} {cs : List Command} (h : s.outstanding = c :: cs) :
    exec i s = .refused .inputOverCapacity ↔ withinCapacity c.req.inp.length = false := by
  cases hfit : withinCapacity c.req.inp.length with
  | false => simp [exec_refused i h hfit]
  | true => simp [exec_cons i h hfit]

theorem step_issue {s : State} {r : Request} {ms : List Move} (ha : s.agenda = .issue r :: ms) :
    step s = issue r { s with agenda := ms } := by
  simp only [step, ha, takeMove]

/-- Settles O39: the bound of any capacity, and the refusal at issue and at execution. -/
theorem overCapacityIsRefused : Obligations.OverCapacityIsRefused := by
  refine ⟨fun _ => withinCapacity_of_le, withinCapacity_iff, fun s r ms ha => ?_, fun i s c cs => exec_refused_iff i⟩
  rw [step_issue ha, issue_refused_iff]

/-! ## Reading response fields -/

theorem step_read {s : State} {tag : Nat} {f : Field} {ms : List Move} (ha : s.agenda = .read tag f :: ms) :
    step s = readField tag f { s with agenda := ms } := by
  simp only [step, ha, takeMove]

theorem step_read_value {s : State} {tag : Nat} {f : Field} {ms : List Move} {v : FieldValue}
    (ha : s.agenda = .read tag f :: ms) (hv : (s.responseOf tag).bind (·.read f) = some v) :
    step s = .next { s with agenda := ms, lastRead := some v } := by
  have hv' : (State.responseOf { s with agenda := ms } tag).bind (·.read f) = some v := hv
  simp only [step_read ha, readField, hv']

theorem step_read_faults {s : State} {tag : Nat} {f : Field} {ms : List Move} (ha : s.agenda = .read tag f :: ms)
    (hv : (s.responseOf tag).bind (·.read f) = none) : step s = .fault (.noValue tag f) := by
  have hv' : (State.responseOf { s with agenda := ms } tag).bind (·.read f) = none := hv
  simp only [step_read ha, readField, hv']

theorem Response.read_eq_none_iff (resp : Response) (f : Field) : resp.read f = none ↔ resp.has f = false := by
  simp [Response.has]

/-- Settles O41: the value of the field where there is one, else the fault. -/
theorem readingAFieldWithoutValueFaults : Obligations.ReadingAFieldWithoutValueFaults := by
  intro s tag f ms ha
  refine ⟨fun v => step_read_value ha, fun hno => step_read_faults ha ?_⟩
  obtain hnone | ⟨resp, hsome, hhas⟩ := hno
  · rw [hnone]; rfl
  · rw [hsome]; exact (resp.read_eq_none_iff f).mpr hhas

/-- R22: the response of a command with no earlier response of its tag. -/
theorem answer_responseOf {s : State} {c : Command} (cs : List Command) (resp : Response)
    (h : s.responseOf c.tag = none) : (s.answer c cs resp).responseOf c.tag = some resp := by
  have hfind : s.responses.find? (fun d => d.tag == c.tag) = none := Option.map_eq_none_iff.mp h
  simp [State.responseOf, List.find?_append, hfind]

/-- A command that ended was within capacity, and its response is the response function's value. -/
theorem exec_next_responseOf {i : Instr} {s t : State} {c : Command} {cs : List Command} (h : s.outstanding = c :: cs)
    (hnew : s.responseOf c.tag = none) (ht : exec i s = .next t) :
    t.responseOf c.tag = some (respond i (Config.now s.nowDraws) c.req) := by
  cases hfit : withinCapacity c.req.inp.length with
  | false => rw [exec_refused i h hfit] at ht; cases ht
  | true => rw [exec_cons i h hfit] at ht; cases ht; exact answer_responseOf cs _ hnew

/-- Settles O42: the response meets the command's row, so the fields of the row can be read and no others. -/
theorem unwrittenFieldsHoldNoValue : Obligations.UnwrittenFieldsHoldNoValue := by
  intro i s t c cs resp f ms h hnew ht hresp
  have fields : resp.writesOnly i := by
    rw [exec_next_responseOf h hnew ht] at hresp
    cases hresp
    exact (respond_meetsRow i _ _).fields
  have read : (State.responseOf { t with agenda := .read c.tag f :: ms } c.tag).bind (·.read f) = resp.read f :=
    congrArg (·.bind (·.read f)) hresp
  refine ⟨fun hno => step_read_faults rfl ?_, fun hyes => ?_⟩
  · rw [read, resp.read_eq_none_iff]
    exact Bool.eq_false_iff.mpr (mt (fields f).mp hno)
  · obtain ⟨v, hv⟩ := Option.isSome_iff_exists.mp ((fields f).mpr hyes)
    exact ⟨v, hv, step_read_value rfl (read.trans hv)⟩

/-- Settles O44: the reset state holds no command and no response, so the engine's turn finds nothing to do. -/
theorem idleAfterReset : Obligations.IdleAfterReset := 
  ⟨rfl, fun _ _ => rfl, engineTurn_none exec (s := State.reset) (k := 0) rfl⟩

end Sys2Proof.Machine
end

section
/-! PROOFS of the family `20_memory.md`: a request is captured when it is issued (R55), and outstanding commands may
complete in either order (R58, R59). -/

namespace Sys2Proof.Machine

/-! ## Issuing -/

theorem issue_fits {s : State} {r : Request} (hfit : withinCapacity r.inp.length = true) :
    issue r s = .next { s with outstanding := s.outstanding ++ [⟨s.issued, r⟩], issued := s.issued + 1 } :=
  if_pos hfit

/-- Settles O40: a step on an issue move is the issue, which captures a request within capacity. -/
theorem issueCapturesTheRequest : Obligations.IssueCapturesTheRequest := by
  intro s r ms ha hfit
  rw [step_issue ha, issue_fits hfit]

/-! ## The completion order -/

/-- R24, R27, R73: a command within capacity whose word is the legal command `i`, which reads no `NOW` for its request. -/
structure Command.Drawless (i : Instr) (c : Command) : Prop where
  fits : withinCapacity c.req.inp.length = true
  decodes : decode c.req.cmd = .ok i
  noDraw : readsNow i c.req = false

/-- R59, R58: completing such a command, wherever it stands, delivers its response and takes no draw, so the draw the next
command would see is the same as before. -/
theorem step_engine_drawless {s : State} {k : Nat} {ms : List Move} {c : Command} {i : Instr}
    (ha : s.agenda = .engine k :: ms) (hc : s.outstanding[k]? = some c) (h : c.Drawless i) :
    step s = .next (State.answer { s with agenda := ms } c (s.outstanding.eraseIdx k)
      (respond i (Config.now s.nowDraws) c.req)) := by
  rw [step_engine ha hc, serve_decoded exec rfl h.decodes, exec_cons i rfl h.fits, h.noDraw]
  rfl

/-- R59: the command `c` completes first, wherever it stands, and then the oldest one left, `d`; each response depends on
its own command and the draw before both. -/
theorem runSteps_drawless_pair {s : State} {k : Nat} {c d : Command} {cs : List Command} {i j : Instr}
    (hc : s.outstanding[k]? = some c) (hrest : s.outstanding.eraseIdx k = d :: cs) (hi : c.Drawless i)
    (hj : d.Drawless j) :
    runSteps 2 { s with agenda := [.engine k, .engine 0] } =
      .next { s with
        agenda := []
        outstanding := cs
        responses := s.responses ++ [⟨c.tag, respond i (Config.now s.nowDraws) c.req⟩,
          ⟨d.tag, respond j (Config.now s.nowDraws) d.req⟩] } := by
  have first := step_engine_drawless (s := { s with agenda := [.engine k, .engine 0] }) rfl hc hi
  have second := step_engine_drawless (s := State.answer { s with agenda := [.engine 0] } c (d :: cs)
    (respond i (Config.now s.nowDraws) c.req)) rfl rfl hj
  rw [hrest] at first
  rw [runSteps_next 1 first, runSteps_next 0 second]
  simp [State.answer]

/-- Settles O38: either command may be the first of the pair, and neither takes the draw the other is given. -/
theorem completionOrderIsFree : Obligations.CompletionOrderIsFree := by
  intro s a b cs i j ho hfitA hfitB hdecA hdecB hnowA hnowB
  have drawlessA : a.Drawless i := ⟨hfitA, hdecA, hnowA⟩
  have drawlessB : b.Drawless j := ⟨hfitB, hdecB, hnowB⟩
  refine ⟨_, _, runSteps_drawless_pair ?_ ?_ drawlessA drawlessB, runSteps_drawless_pair ?_ ?_ drawlessB drawlessA⟩
  all_goals simp [ho]

end Sys2Proof.Machine
end

section
/-! PROOFS of the family `30_encoding.md`: the command words that decode and what they decode to (R70 to R73), the bytes of
a header (R93), of a status (R90) and of a type kind (R81, R91), and the sequence FRAME_ALERT (R75). -/

namespace Sys2Proof

/-! ## Command words -/

/-- R70, R71: the fields of each command's word. -/
def Instr.fields : Instr → CommandWord
  | .crc16 => ⟨0x01, false, false, 0⟩
  | .pktEncode ttlp tsp => ⟨0x02, ttlp, tsp, 0⟩
  | .pktDecode => ⟨0x03, false, false, 0⟩
  | .addressed => ⟨0x04, false, false, 0⟩
  | .alertPriority => ⟨0x05, false, false, 0⟩
  | .alertEncode => ⟨0x06, false, false, 0⟩
  | .alertDecode => ⟨0x07, false, false, 0⟩

theorem ofBits_encode (i : Instr) : CommandWord.ofBits (encode i) = i.fields := by
  cases i with
  | pktEncode ttlp tsp => cases ttlp <;> cases tsp <;> rfl
  | _ => rfl

/-- R70: the four fields leave out no bit of the word. -/
theorem ofBits_injective : Function.Injective CommandWord.ofBits := by
  intro w v h
  simp only [CommandWord.ofBits, CommandWord.mk.injEq] at h
  obtain ⟨hop, httlp, htsp, hreserved⟩ := h
  refine BitVec.eq_of_getLsbD_eq fun j hj => ?_
  obtain hlow | rfl | rfl | hhigh : j < 8 ∨ j = 8 ∨ j = 9 ∨ 10 ≤ j := by omega
  · simpa [hlow] using congrArg (·.getLsbD j) hop
  · exact httlp
  · exact htsp
  · simpa [show j - 10 < 6 by omega, Nat.add_sub_cancel' hhigh] using congrArg (·.getLsbD (j - 10)) hreserved

/-- R71, R72: the opcode alone selects the command, and only PKT_ENCODE keeps the modifier bits. -/
theorem fields_of_commandOf {op : Byte} {ttlp tsp : Bool} {i : Instr} (h : commandOf op ttlp tsp = some i) :
    i.fields = ⟨op, decide (op = 0x02) && ttlp, decide (op = 0x02) && tsp, 0⟩ := by
  unfold commandOf at h
  split at h
  case h_8 => cases h
  all_goals
    rename_i hop
    cases h
    simp [Instr.fields, ← BitVec.toNat_inj, hop]

/-- R73 (a): the opcode selects a command exactly when it is one of 0x01..0x07. -/
theorem commandOf_isSome (c : CommandWord) : (commandOf c.op c.ttlp c.tsp).isSome = c.opDefined := by
  unfold commandOf CommandWord.opDefined
  split
  case h_8 => rw [Option.isSome_none, eq_comm, decide_eq_false_iff_not]; grind
  all_goals
    rename_i hop
    simp [hop]

/-- R73 (c): the modifiers are legal where both are 0, and at any value on PKT_ENCODE. -/
theorem modifiersLegal_iff (c : CommandWord) :
    c.modifiersLegal = true ↔ (c.ttlp = false ∧ c.tsp = false) ∨ c.op = 0x02 := by
  simp [CommandWord.modifiersLegal]

/-- R71, R73: a word decodes when its opcode selects a command and no other ground makes it illegal. -/
theorem decodeFields_eq_ok_iff (c : CommandWord) (i : Instr) :
    decodeFields c = .ok i ↔
      commandOf c.op c.ttlp c.tsp = some i ∧ c.reservedZero = true ∧ c.modifiersLegal = true := by
  unfold decodeFields
  cases commandOf c.op c.ttlp c.tsp <;> cases c.reservedZero <;> cases c.modifiersLegal <;> simp

/-- R73: the fields are rejected exactly when they are not well formed. -/
theorem decodeFields_error_iff (c : CommandWord) : (∃ e, decodeFields c = .error e) ↔ c.wf = false := by
  rw [CommandWord.wf, ← commandOf_isSome]
  unfold decodeFields
  cases commandOf c.op c.ttlp c.tsp <;> cases c.reservedZero <;> cases c.modifiersLegal <;> simp

/-- R73 (b), (c): legal fields are those of the command they select. -/
theorem fields_of_decodeFields {c : CommandWord} {i : Instr} (h : decodeFields c = .ok i) : c = i.fields := by
  obtain ⟨hcmd, hreserved, hmod⟩ := (decodeFields_eq_ok_iff c i).mp h
  rw [fields_of_commandOf hcmd]
  obtain ⟨op, ttlp, tsp, reserved⟩ := c
  obtain rfl : reserved = 0 := of_decide_eq_true hreserved
  obtain ⟨rfl, rfl⟩ | rfl : (ttlp = false ∧ tsp = false) ∨ op = 0x02 := (modifiersLegal_iff _).mp hmod
  · simp
  · simp

theorem decode_encode (i : Instr) : decode (encode i) = .ok i := by
  rw [decode, ofBits_encode]
  cases i with
  | pktEncode ttlp tsp => cases ttlp <;> cases tsp <;> rfl
  | _ => rfl

/-- R70 to R73: the words that decode are the words of the commands. -/
theorem decode_eq_ok_iff (w : Half) (i : Instr) : decode w = .ok i ↔ w = encode i := by
  constructor
  · intro h
    exact ofBits_injective ((fields_of_decodeFields h).trans (ofBits_encode i).symm)
  · rintro rfl
    exact decode_encode i

/-- Settles O2: a legal word's fields are those of the command's word, and the fields are the whole word. -/
theorem decodeAndEncodeAgree : Obligations.DecodeAndEncodeAgree :=
  ⟨decode_encode, fun w i h => ((decode_eq_ok_iff w i).mp h).symm⟩

/-- R71: the masks of the commands without modifiers cover the whole word. -/
theorem and_0xFFFF (w : Half) : w &&& 0xFFFF = w := BitVec.and_allOnes

/-- R72: PKT_ENCODE's mask clears the two modifier bits and keeps every other field. -/
theorem ofBits_and_0xFCFF (w : Half) :
    CommandWord.ofBits (w &&& 0xFCFF) = { CommandWord.ofBits w with ttlp := false, tsp := false } := by
  have opcode : w.extractLsb' 0 8 &&& 0xFF = w.extractLsb' 0 8 := BitVec.and_allOnes
  have reserved : w.extractLsb' 10 6 &&& 0x3F = w.extractLsb' 10 6 := BitVec.and_allOnes
  simpa [CommandWord.ofBits, BitVec.extractLsb'_and] using ⟨opcode, reserved⟩

/-- R71: the words of PKT_ENCODE by its mask and match. -/
theorem decode_pktEncode_iff (w : Half) (ttlp tsp : Bool) :
    decode w = .ok (.pktEncode ttlp tsp) ↔ w &&& 0xFCFF = 0x0002 ∧ w.getLsbD 8 = ttlp ∧ w.getLsbD 9 = tsp := by
  rw [decode_eq_ok_iff, ← ofBits_injective.eq_iff, ← ofBits_injective.eq_iff (a := w &&& 0xFCFF), ofBits_and_0xFCFF,
    ofBits_encode, show (0x0002 : Half) = encode (.pktEncode false false) from rfl, ofBits_encode]
  simp only [Instr.fields, CommandWord.ofBits, CommandWord.mk.injEq, true_and]
  tauto

/-- Settles O3: a command word without modifiers is its match; PKT_ENCODE's is its match but for the modifier bits. -/
theorem legalWordsByMaskAndMatch : Obligations.LegalWordsByMaskAndMatch := by
  intro w
  simp only [and_0xFFFF]
  exact ⟨decode_eq_ok_iff w _, decode_pktEncode_iff w, decode_eq_ok_iff w _, decode_eq_ok_iff w _, decode_eq_ok_iff w _,
    decode_eq_ok_iff w _, decode_eq_ok_iff w _⟩

/-- Settles O1: the ten legal words are those of the commands; each other one fails the check it names first. -/
theorem commandWordsDecodeAsListed : Obligations.CommandWordsDecodeAsListed :=
  ⟨decode_encode .crc16, decode_encode (.pktEncode false false), decode_encode (.pktEncode true false),
    decode_encode (.pktEncode false true), decode_encode (.pktEncode true true), decode_encode .pktDecode,
    decode_encode .addressed, decode_encode .alertPriority, decode_encode .alertEncode, decode_encode .alertDecode,
    rfl, rfl, rfl, rfl⟩

/-! ## Illegal command words -/

/-- R70: bits 9..8 are the two modifiers. -/
theorem extract_modifiers_eq_zero_iff (w : Half) :
    w.extractLsb' 8 2 = 0 ↔ w.getLsbD 8 = false ∧ w.getLsbD 9 = false := by
  constructor
  · intro h
    exact ⟨by simpa using congrArg (·.getLsbD 0) h, by simpa using congrArg (·.getLsbD 1) h⟩
  · rintro ⟨httlp, htsp⟩
    refine BitVec.eq_of_getLsbD_eq fun j hj => ?_
    obtain rfl | rfl : j = 0 ∨ j = 1 := by omega
    · simpa using httlp
    · simpa using htsp

/-- R73: the three grounds, on the bits of the word. -/
theorem decode_error_iff (w : Half) :
    (∃ e, decode w = .error e) ↔
      ¬ (1 ≤ (w.extractLsb' 0 8).toNat ∧ (w.extractLsb' 0 8).toNat ≤ 7) ∨ w.extractLsb' 10 6 ≠ 0 ∨
        (w.extractLsb' 0 8 ≠ 0x02 ∧ w.extractLsb' 8 2 ≠ 0) := by
  have modifiers : (CommandWord.ofBits w).modifiersLegal = false ↔
      w.extractLsb' 0 8 ≠ 0x02 ∧ w.extractLsb' 8 2 ≠ 0 := by
    rw [← Bool.not_eq_true, modifiersLegal_iff, not_or, and_comm, ne_eq (w.extractLsb' 8 2),
      extract_modifiers_eq_zero_iff]
    rfl
  have opcode : (CommandWord.ofBits w).opDefined = false ↔
      ¬ (1 ≤ (w.extractLsb' 0 8).toNat ∧ (w.extractLsb' 0 8).toNat ≤ 7) := decide_eq_false_iff_not
  have reserved : (CommandWord.ofBits w).reservedZero = false ↔ w.extractLsb' 10 6 ≠ 0 := decide_eq_false_iff_not
  rw [decode, decodeFields_error_iff, CommandWord.wf, Bool.and_eq_false_iff, Bool.and_eq_false_iff, opcode, reserved,
    modifiers, or_assoc]

end Sys2Proof

namespace Sys2Proof.Machine

/-- R172: the engine's service of an illegal word is its one response; no `NOW` is drawn. -/
theorem serve_illegal {s : State} {c : Command} {cs : List Command} (h : s.outstanding = c :: cs)
    (hfit : withinCapacity c.req.inp.length = true) (hd : ∃ e, decode c.req.cmd = .error e) :
    serve exec s = .next (s.answer c cs { status := .illegalCommand }) := by
  obtain ⟨e, he⟩ := hd
  rw [serve_cons exec h, he]
  exact execute_cons _ h hfit

/-- Settles O4: the three grounds on the bits of the word, and each form of the engine's turn serves the command. -/
theorem illegalWordsComplete : Obligations.IllegalWordsComplete := by
  refine ⟨decode_error_iff, fun s k c hc hfit hd => ⟨fun ms ha => ?_, fun ha ho => ?_, fun ha hn hk => ?_⟩⟩
  · rw [step_engine ha hc, serve_illegal rfl hfit hd]; rfl
  · rw [step_free_one ha ho, serve_illegal ho hfit hd]
  · subst hk
    rw [step_free_several ha hn hc, serve_illegal rfl hfit hd]; rfl

/-! ## Bytes of the header, of a status and of a type kind -/

/-- Settles O8: R93's fields in order, each written by `be16`, `be32` or as it is. -/
theorem headerBytes : Obligations.HeaderBytes := fun _ _ _ _ _ _ _ _ => rfl

/-- Settles O11: R90's table. -/
theorem statusBytes : Obligations.StatusBytes := rfl

theorem mem_packetTypes (n : PacketType) : n ∈ packetTypes := by cases n <;> decide

/-- R80: no two names share a code. -/
theorem code_injective {t : TypeCodes} (h : t.distinct = true) : Function.Injective t.code := by
  have nodup : (packetTypes.map t.code).Nodup := of_decide_eq_true h
  intro n m hnm
  exact List.inj_on_of_nodup_map nodup (mem_packetTypes n) (mem_packetTypes m) hnm

/-- R79: the name index is the position in the list of names. -/
theorem packetTypes_nameIndex (n : PacketType) : packetTypes[(nameIndex n).toNat]? = some n := by cases n <;> rfl

theorem nameIndex_injective : Function.Injective nameIndex := by
  intro n m h
  have same : some n = some m := by rw [← packetTypes_nameIndex n, h, packetTypes_nameIndex m]
  exact Option.some.inj same

/-- R91: 0xFF is never a name index. -/
theorem nameIndex_ne_0xFF (n : PacketType) : nameIndex n ≠ 0xFF := by cases n <;> decide

/-- R81: `tkind` finds the name with the code, which injectivity makes the only one. -/
theorem tkind_eq_some_iff {t : TypeCodes} (h : t.distinct = true) (b : Byte) (n : PacketType) :
    tkind t b = some n ↔ t.code n = b := by
  constructor
  · intro hn
    simpa using List.find?_some hn
  · rintro rfl
    cases hfound : tkind t (t.code n) with
    | none => simpa using List.find?_eq_none.mp hfound n (mem_packetTypes n)
    | some m => rw [code_injective h (by simpa using List.find?_some hfound : t.code m = t.code n)]

/-- R81: UNKNOWN is a byte that is no name's code. -/
theorem tkind_eq_none_iff (t : TypeCodes) (b : Byte) : tkind t b = none ↔ ∀ n, t.code n ≠ b := by
  simp [tkind, mem_packetTypes]

theorem tkindByte_eq_nameIndex_iff (t : TypeCodes) (b : Byte) (n : PacketType) :
    tkindByte t b = nameIndex n ↔ tkind t b = some n := by
  unfold tkindByte
  cases tkind t b with
  | none => simpa using (nameIndex_ne_0xFF n).symm
  | some m => simpa using nameIndex_injective.eq_iff

theorem tkindByte_eq_0xFF_iff (t : TypeCodes) (b : Byte) : tkindByte t b = 0xFF ↔ tkind t b = none := by
  unfold tkindByte
  cases tkind t b with
  | none => simp
  | some m => simpa using nameIndex_ne_0xFF m

/-- Settles O10: the type kind is read off `tkind`, which inverts the injective codes. -/
theorem typeClassification : Obligations.TypeClassification :=
  ⟨typeCodes_distinct, fun codes b h =>
    ⟨fun n => (tkindByte_eq_nameIndex_iff codes b n).trans (tkind_eq_some_iff h b n),
      (tkindByte_eq_0xFF_iff codes b).trans (tkind_eq_none_iff codes b)⟩⟩

/-! ## The sequence FRAME_ALERT -/

theorem payloadKind_eq_alert_iff (k : Byte) : payloadKind k = .alert ↔ k = 5 := by
  unfold payloadKind
  split
  next h => exact iff_of_true rfl h
  next h =>
    refine iff_of_false ?_ h
    split <;> nofun

/-- R75: the first response is PKT_DECODE's, whatever comes after. -/
theorem frameAlert_fst (p : Params) (r : Request) : (frameAlert p r.inp).1 = pktDecodeResponse p r := by
  unfold frameAlert
  dsimp only
  split
  · split <;> rfl
  · rfl

/-- R75, R150: without the kind ALERT the second command is not issued. -/
theorem frameAlert_stops {p : Params} {r : Request} (h : (pktDecodeResponse p r).rTkind ≠ some 5) :
    (frameAlert p r.inp).2 = none := by
  unfold frameAlert
  dsimp only
  split
  next k t payload hk _ _ =>
    have notAlert : k ≠ 5 := by
      rintro rfl
      exact h hk
    rw [if_neg (mt (payloadKind_eq_alert_iff k).mp notAlert)]
  · rfl

/-- R75, R150: with the kind ALERT the second command decodes the type and the payload the first one gave. -/
theorem frameAlert_goes_on {p : Params} {r r' : Request} (hk : (pktDecodeResponse p r).rTkind = some 5)
    (ht : (pktDecodeResponse p r).rType = some r'.aType) (hout : (pktDecodeResponse p r).out = some r'.inp) :
    (frameAlert p r.inp).2 = some (alertDecodeResponse p r') := by
  have first : pktDecodeResponse p { Request.blank 0x0003 with inp := r.inp } = pktDecodeResponse p r := rfl
  simp only [frameAlert, first, hk, ht, hout]
  rw [if_pos ((payloadKind_eq_alert_iff 5).mpr rfl)]
  rfl

/-- R22: PKT_DECODE gives `R_TKIND`, `R_TYPE` and `OUT` together, on OK, and none of them else. -/
theorem pktDecodeResponse_has (p : Params) (r : Request) {f : Field} (hf : f ∈ writtenOnOk .pktDecode) :
    (pktDecodeResponse p r).has f = true ↔ (pktDecodeResponse p r).status = .ok := by
  have notStatus : f ≠ .status := by rintro rfl; exact absurd hf (by decide)
  simp [(pktDecodeResponse_meetsRow p r).fields f, notStatus, hf]

/-- Settles O34: `R_TKIND` holds a value only after OK, where the type and the payload hold one too. -/
theorem frameAlertSequence : Obligations.FrameAlertSequence := by
  intro s r packet hs ha
  obtain rfl : packet = pktDecodeResponse Config.params r := (answers_iff .pktDecode hs packet).mp ha
  have written {f : Field} (hf : f ∈ writtenOnOk .pktDecode) := pktDecodeResponse_has Config.params r hf
  have kind_ok (hk : (pktDecodeResponse Config.params r).rTkind = some 5) :
      (pktDecodeResponse Config.params r).status = .ok :=
    (written (f := .rTkind) (by decide)).mp (by simp [Response.has, Response.read, hk])
  refine ⟨frameAlert_fst _ r, fun hfail => frameAlert_stops (mt kind_ok hfail), frameAlert_stops, fun hk => ?_⟩
  have hasType := (written (f := .rType) (by decide)).mpr (kind_ok hk)
  have hasOut := (written (f := .out) (by decide)).mpr (kind_ok hk)
  simp only [Response.has, Response.read, Option.isSome_map, Option.isSome_iff_exists] at hasType hasOut
  obtain ⟨type, htype⟩ := hasType
  obtain ⟨payload, hout⟩ := hasOut
  refine ⟨type, payload, htype, hout, ?_⟩
  rintro s' r' hs' rfl rfl
  exact ⟨_, frameAlert_goes_on hk htype hout, (answers_iff .alertDecode hs' _).mpr rfl⟩

end Sys2Proof.Machine
end

section
/-! PROOFS of the family `40_checksum.md`: R101's algorithm over the natural numbers gives `crc16`, which is linear and
detects every changed byte (R104), and the command CRC16 (R102) with its check values (R105). -/

namespace Sys2Proof.Machine

/-! ## R101's algorithm over the natural numbers -/

/-- R101: one round without a mask, on an accumulator of any length. -/
def natRound (a : Nat) : Nat := if a.testBit 15 then (a <<< 1) ^^^ 0x1021 else a <<< 1

/-- R101: the accumulator after the bytes of `data`, each entered and followed by 8 rounds `round`. -/
def natCrcFrom (round : Nat → Nat) (acc : Nat) (data : Bytes) : Nat :=
  data.foldl (fun acc b => round^[8] (acc ^^^ (b.toNat <<< 8))) acc

theorem ofNat_shiftLeft {w : Nat} (a k : Nat) : BitVec.ofNat w (a <<< k) = BitVec.ofNat w a <<< k := by
  refine BitVec.eq_of_toNat_eq ?_
  simp [Nat.shiftLeft_eq]

/-- R101: the low 16 bits after a round depend on the low 16 bits before it alone, so a mask may wait. -/
theorem ofNat_natRound : Function.Semiconj (BitVec.ofNat 16) natRound crcRound := by
  intro a
  have top : (BitVec.ofNat 16 a).getLsbD 15 = a.testBit 15 := BitVec.getLsbD_ofNat ..
  unfold natRound crcRound
  rw [top]
  split
  · rw [BitVec.ofNat_xor, ofNat_shiftLeft]
    rfl
  · exact ofNat_shiftLeft a 1

/-- The same round with its mask. -/
theorem ofNat_natRound_masked : Function.Semiconj (BitVec.ofNat 16) (natRound · % 65536) crcRound := by
  intro a
  rw [← ofNat_natRound a]
  exact BitVec.eq_of_toNat_eq (by simp)

theorem crcRounds_eq_iterate (n : Nat) : crcRounds n = crcRound^[n] := by
  induction n with
  | zero => rfl
  | succ n ih => funext acc; rw [crcRounds, ih, Function.iterate_succ_apply]

/-- R101: whatever round agrees with `crcRound` on the low 16 bits, so do the bytes entered with it. -/
theorem ofNat_natCrcFrom {round : Nat → Nat} (h : Function.Semiconj (BitVec.ofNat 16) round crcRound) (acc : Nat)
    (data : Bytes) : BitVec.ofNat 16 (natCrcFrom round acc data) = crcFrom (BitVec.ofNat 16 acc) data := by
  refine (List.foldl_hom (BitVec.ofNat 16) fun a b => ?_).symm
  rw [crcByte, crcRounds_eq_iterate, h.iterate_right 8, BitVec.ofNat_xor, ofNat_shiftLeft, BitVec.ofNat_toNat]

theorem natCrcFrom_mod {round : Nat → Nat} (h : Function.Semiconj (BitVec.ofNat 16) round crcRound) (data : Bytes) :
    natCrcFrom round 0xFFFF data % 65536 = (crc16 data).toNat :=
  congrArg BitVec.toNat (ofNat_natCrcFrom h 0xFFFF data)

/-- R101: with the mask in each round the accumulator stays within 16 bits. -/
theorem natCrcFrom_lt {round : Nat → Nat} (h : ∀ a, round a < 65536) {acc : Nat} (hacc : acc < 65536) (data : Bytes) :
    natCrcFrom round acc data < 65536 := by
  refine List.foldlRecOn (motive := (· < 65536)) data _ hacc fun a _ b _ => ?_
  rw [Function.iterate_succ_apply']
  exact h _

/-! ## R104: linearity and detection -/

/-- R104: the CRC is linear in the initial value and the bytes. -/
theorem crcFrom_xor (x y : Half) {a b : Bytes} (h : a.length = b.length) :
    crcFrom (x ^^^ y) (List.zipWith (fun u v => u ^^^ v) a b) = crcFrom x a ^^^ crcFrom y b := by
  induction a generalizing x y b with
  | nil =>
    obtain rfl := List.length_eq_zero_iff.mp h.symm
    rfl
  | cons u as ih =>
    cases b with
    | nil => cases h
    | cons v bs =>
      rw [List.zipWith_cons_cons, crcFrom_cons, crcByte_xor]
      exact ih _ _ (Nat.succ.inj h)

/-- R104: rounds are linear and keep a nonzero difference nonzero. -/
theorem crcRounds_injective (n : Nat) : Function.Injective (crcRounds n) := by
  intro a b h
  by_contra hne
  refine crcRounds_ne_zero n (mt BitVec.xor_eq_zero_iff.mp hne) ?_
  rw [crcRounds_xor, h]
  exact BitVec.xor_self

theorem crcByte_left_injective (b : Byte) : Function.Injective (crcByte · b) := by
  intro x y h
  exact (BitVec.xor_left_inj _).mp (crcRounds_injective 8 h)

theorem crcByte_right_injective (acc : Half) : Function.Injective (crcByte acc) := by
  intro x y h
  have shifted : (x.setWidth 16 <<< 8 : Half) = y.setWidth 16 <<< 8 :=
    (BitVec.xor_right_inj _).mp (crcRounds_injective 8 h)
  have numbers := congrArg BitVec.toNat shifted
  simp only [BitVec.toNat_shiftLeft, BitVec.toNat_setWidth, Nat.shiftLeft_eq] at numbers
  exact BitVec.eq_of_toNat_eq (by omega)

theorem crcFrom_left_injective (data : Bytes) : Function.Injective (crcFrom · data) := by
  induction data with
  | nil => exact fun _ _ h => h
  | cons b bs ih => exact ih.comp (crcByte_left_injective b)

/-- R104: one byte of a sequence cannot change without its `crc16`. -/
theorem crc16_byte_injective (before after : Bytes) : Function.Injective fun b => crc16 (before ++ b :: after) := by
  intro x y h
  simp only [crc16, crcFrom_append, crcFrom_cons] at h
  exact crcByte_right_injective _ (crcFrom_left_injective after h)

theorem flipBit_eq {b : Bytes} {k : Nat} (h : k < b.length) (j : Nat) :
    flipBit b k j = b.take k ++ (b[k] ^^^ (1#8 <<< j)) :: b.drop (k + 1) :=
  List.modify_eq_take_cons_drop h

theorem xor_bit_ne (b : Byte) {j : Nat} (h : j < 8) : b ^^^ (1#8 <<< j) ≠ b := by
  intro heq
  have bit := congrArg (·.getLsbD j) heq
  simp [h] at bit

/-! ## The obligations -/

/-- Settles O14: both rounds agree with `crcRound` on 16 bits, and the masked one leaves nothing above them. -/
theorem crcAlgorithm : Obligations.CrcAlgorithm := by
  intro data
  have bounded : natCrcFrom (natRound · % 65536) 0xFFFF data < 65536 :=
    natCrcFrom_lt (fun _ => Nat.mod_lt _ (by decide)) (by decide) data
  have masked := natCrcFrom_mod ofNat_natRound_masked data
  rw [Nat.mod_eq_of_lt bounded] at masked
  exact ⟨masked, natCrcFrom_mod ofNat_natRound data⟩

/-- Settles O15: equal initial values cancel, and a flipped bit changes one byte. -/
theorem crcErrorDetection : Obligations.CrcErrorDetection := by
  refine ⟨fun a b h => ?_, fun a k j hk hj heq => ?_⟩
  · rw [crc16, crc16, ← crcFrom_xor crcInit crcInit h, BitVec.xor_self]
    rfl
  · have split : a = a.take k ++ a[k] :: a.drop (k + 1) := by simp
    rw [flipBit_eq hk, congrArg crc16 split] at heq
    exact xor_bit_ne a[k] hj (crc16_byte_injective _ _ heq)

/-- Settles O12: CRC16 is an `execute`. -/
theorem crc16Completes : Obligations.Crc16Completes :=
  ⟨decode_encode .crc16, fun _ _ _ h hfit => execute_cons crc16Response h hfit⟩

/-- Settles O13 by evaluation. -/
theorem crcCheckValues : Obligations.CrcCheckValues := by
  unfold Obligations.CrcCheckValues
  decide +kernel

end Sys2Proof.Machine
end

section
/-! PROOFS of the family `41_packet_codec.md`: what PKT_ENCODE answers (R112, R113), the checks of PKT_DECODE in order
(R115 to R121), the frames it accepts (R122, R125), cut frames and flipped bits (R126, R127), and ADDRESSED (R124). -/

namespace Sys2Proof.Machine

/-! ## What PKT_ENCODE answers -/

/-- R112: a payload within the limit is answered with its frame. -/
theorem pktEncodeResponse_fits {p : Params} (ttlp tsp : Bool) (now : Word) {r : Request}
    (h : r.inp.length ≤ p.maxPayload) :
    pktEncodeResponse p ttlp tsp now r =
      let ttl := if ttlp then r.aTtl else defaultTtl
      let ts := if tsp then r.aTs else now
      { status := .ok
        out := some (frame r.aType r.aSrc r.aDst r.aPri ttl ts r.inp)
        rTs := some ts
        rLen := some (BitVec.ofNat 16 r.inp.length)
        rChk := some (frameChecksum r.aType r.aSrc r.aDst r.aPri ttl ts r.inp) } :=
  if_neg (Nat.not_lt.mpr h)

/-- R112: a longer one with OversizedPayload. -/
theorem pktEncodeResponse_oversized {p : Params} (ttlp tsp : Bool) (now : Word) {r : Request}
    (h : p.maxPayload < r.inp.length) : pktEncodeResponse p ttlp tsp now r = .failed .oversizedPayload :=
  if_pos h

/-- R112: PKT_ENCODE answers a frame only for a payload within the limit, and the frame is the payload's. -/
theorem pktEncode_frame {ttlp tsp : Bool} {s : State} {r : Request} {resp : Response} {f : Bytes} (hs : s.Serves r)
    (ha : Answers (.pktEncode ttlp tsp) s resp) (hf : resp.out = some f) :
    let ttl := if ttlp then r.aTtl else defaultTtl
    let ts := if tsp then r.aTs else Config.now s.nowDraws
    r.inp.length ≤ 65535 ∧ resp.rTs = some ts ∧
      resp.rChk = some (frameChecksum r.aType r.aSrc r.aDst r.aPri ttl ts r.inp) ∧
      f = frame r.aType r.aSrc r.aDst r.aPri ttl ts r.inp := by
  obtain rfl := (answers_iff _ hs resp).mp ha
  simp only [respond] at hf ⊢
  obtain hfits | hover := le_or_gt r.inp.length Config.params.maxPayload
  · rw [pktEncodeResponse_fits ttlp tsp _ hfits] at hf ⊢
    exact ⟨hfits, rfl, rfl, (Option.some.inj hf).symm⟩
  · rw [pktEncodeResponse_oversized ttlp tsp _ hover] at hf
    cases hf

/-- Settles O16: `readsNow` says when the draw is taken, and the length of the payload decides the response. -/
theorem pktEncodeCompletes : Obligations.PktEncodeCompletes := by
  refine ⟨fun ttlp tsp => ?_, fun ttlp tsp s c cs h hfit => ⟨fun hlen => ?_, fun hlen => ?_⟩⟩
  · have word : (0x0002 ||| (if ttlp then 0x0100 else 0) ||| (if tsp then 0x0200 else 0) : Half) =
        encode (.pktEncode ttlp tsp) := by cases ttlp <;> cases tsp <;> rfl
    rw [word, decode_encode]
  · rw [exec_cons _ h hfit, respond, pktEncodeResponse_fits ttlp tsp _ hlen]
    cases tsp <;> simp [readsNow, hlen, frame, frameChecksum, defaultTtl]
  · rw [exec_cons _ h hfit, respond, pktEncodeResponse_oversized ttlp tsp _ hlen]
    simp [readsNow, Nat.not_le.mpr hlen, Response.failed]

/-- Settles O17: the header's bytes 18 and 19 are the checksum's and no other byte depends on it. -/
theorem singlePassEncodeIsEquivalent : Obligations.SinglePassEncodeIsEquivalent := by
  intro ttlp tsp s r resp f hs ha hf
  obtain ⟨-, -, -, rfl⟩ := pktEncode_frame hs ha hf
  rfl

/-! ## What PKT_DECODE answers -/

/-- R94: the header fields of `b`, each byte read from its own offset. -/
def receivedFields (b : Bytes) : HeaderFields :=
  let byte := fun k : Nat => b.getD k 0
  { sync := b.take 4
    ver := byte 4
    type := byte 5
    src := rd16 (byte 6) (byte 7)
    dst := rd16 (byte 8) (byte 9)
    pri := byte 10
    ttl := byte 11
    ts := rd32 (byte 12) (byte 13) (byte 14) (byte 15)
    len := rd16 (byte 16) (byte 17)
    chk := rd16 (byte 18) (byte 19) }

/-- R115: the payload bytes that the length field of `b` declares. -/
def receivedPayload (b : Bytes) : Bytes := (b.drop 32).take (receivedFields b).len.toNat

/-- R117: the bytes that the checksum of `b` covers. -/
def coveredBytes (b : Bytes) : Bytes := b.take 18 ++ [0x00, 0x00] ++ (b.drop 20).take 12 ++ receivedPayload b

/-- R115: the response to a frame that passes every check, by its header fields and its payload. -/
def decodedResponse (p : Params) (h : HeaderFields) (payload : Bytes) : Response :=
  { status := .ok
    rVer := some h.ver
    rType := some h.type
    rTkind := some (tkindByte p.typeCodes h.type)
    rSrc := some h.src
    rDst := some h.dst
    rPri := some h.pri
    rPknown := some (pknown h.pri)
    rTtl := some h.ttl
    rTs := some h.ts
    rLen := some h.len
    rChk := some h.chk
    out := some payload }

theorem headerFields_of_length {b : Bytes} (h : 32 ≤ b.length) : headerFields b = some (receivedFields b) := by
  have byte (k : Nat) (hk : k < 32) : b.getD k 0 = b[k] := List.getD_eq_getElem b 0 (by omega)
  rw [headerFields, dif_pos h]
  simp only [receivedFields, slice, byte, List.drop_zero, Nat.reduceLT, Nat.reduceSub]

theorem slice_eq_take_drop (b : Bytes) (n : Nat) : slice b 32 (32 + n) = (b.drop 32).take n := by
  rw [slice, Nat.add_sub_cancel_left]

/-- R115, R116: the checks of PKT_DECODE in their order, on the bytes of the frame. -/
theorem pktDecodeResponse_eq (p : Params) (r : Request) :
    pktDecodeResponse p r =
      if r.inp.length < 32 then .failed .tooShort
      else if r.inp.take 4 ≠ syncMarker then .failed .badSync
      else if r.inp.length < 32 + (receivedFields r.inp).len.toNat then .failed .truncated
      else if crc16 (coveredBytes r.inp) ≠ (receivedFields r.inp).chk then .failed .checksumMismatch
      else decodedResponse p (receivedFields r.inp) (receivedPayload r.inp) := by
  unfold pktDecodeResponse
  split
  next h => rw [if_pos (headerFields_none.mp h)]
  next h hh =>
    have long : ¬ r.inp.length < 32 := fun hlt => by simp [headerFields_none.mpr hlt] at hh
    obtain rfl : receivedFields r.inp = h := by simpa [headerFields_of_length (Nat.not_lt.mp long)] using hh
    rw [if_neg long, receivedChecksum, slice_eq_take_drop]
    rfl

/-- R94, R115 to R117: a frame that passes every check of PKT_DECODE. -/
structure IntactFrame (b : Bytes) : Prop where
  sync : b.take 4 = syncMarker
  whole : 32 + (receivedFields b).len.toNat ≤ b.length
  checksum : crc16 (coveredBytes b) = (receivedFields b).chk

theorem IntactFrame.long {b : Bytes} (h : IntactFrame b) : 32 ≤ b.length := (Nat.le_add_right 32 _).trans h.whole

section
variable {s : State} {r : Request} (hs : s.Serves r)
include hs

theorem pktDecode_answers_iff (resp : Response) :
    Answers .pktDecode s resp ↔ resp = pktDecodeResponse Config.params r :=
  answers_iff .pktDecode hs resp

theorem pktDecode_tooShort (h : r.inp.length < 32) : Answers .pktDecode s { status := .tooShort } := by
  rw [pktDecode_answers_iff hs, pktDecodeResponse_eq, if_pos h]
  rfl

theorem pktDecode_badSync (hlong : 32 ≤ r.inp.length) (h : r.inp.take 4 ≠ syncMarker) :
    Answers .pktDecode s { status := .badSync } := by
  rw [pktDecode_answers_iff hs, pktDecodeResponse_eq, if_neg (Nat.not_lt.mpr hlong), if_pos h]
  rfl

theorem pktDecode_truncated (hlong : 32 ≤ r.inp.length) (hsync : r.inp.take 4 = syncMarker)
    (h : r.inp.length < 32 + (receivedFields r.inp).len.toNat) : Answers .pktDecode s { status := .truncated } := by
  rw [pktDecode_answers_iff hs, pktDecodeResponse_eq, if_neg (Nat.not_lt.mpr hlong), if_neg (not_not.mpr hsync),
    if_pos h]
  rfl

theorem pktDecode_checksumMismatch (hsync : r.inp.take 4 = syncMarker)
    (hwhole : 32 + (receivedFields r.inp).len.toNat ≤ r.inp.length)
    (h : crc16 (coveredBytes r.inp) ≠ (receivedFields r.inp).chk) :
    Answers .pktDecode s { status := .checksumMismatch } := by
  rw [pktDecode_answers_iff hs, pktDecodeResponse_eq, if_neg (by omega), if_neg (not_not.mpr hsync),
    if_neg (Nat.not_lt.mpr hwhole), if_pos h]
  rfl

theorem pktDecode_intact (h : IntactFrame r.inp) (resp : Response) :
    Answers .pktDecode s resp ↔
      resp = decodedResponse Config.params (receivedFields r.inp) (receivedPayload r.inp) := by
  rw [pktDecode_answers_iff hs, pktDecodeResponse_eq, if_neg (Nat.not_lt.mpr h.long), if_neg (not_not.mpr h.sync),
    if_neg (Nat.not_lt.mpr h.whole), if_neg (not_not.mpr h.checksum)]

/-- R115: OK is the answer to a frame that passes every check, and to no other. -/
theorem pktDecode_ok_intact {resp : Response} (ha : Answers .pktDecode s resp) (hok : resp.status = .ok) :
    IntactFrame r.inp := by
  rw [pktDecode_answers_iff hs, pktDecodeResponse_eq] at ha
  subst ha
  split_ifs at hok with hlong hsync hwhole hsum
  case neg => exact ⟨not_not.mp hsync, Nat.not_lt.mp hwhole, not_not.mp hsum⟩
  all_goals cases hok

end

/-- R84: the four known priorities. -/
theorem pknown_eq_decide (p : Byte) : pknown p = decide (p = 0 ∨ p = 1 ∨ p = 2 ∨ p = 9) := by
  simp [pknown, beq_eq_decide, Bool.or_assoc]

/-- Settles O18: the checks in order, on the bytes of the frame. -/
theorem pktDecodeCompletes : Obligations.PktDecodeCompletes := by
  refine ⟨decode_encode .pktDecode, fun s c cs h hfit => ?_⟩
  refine (execute_cons (pktDecodeResponse Config.params) h hfit).trans ?_
  rw [pktDecodeResponse_eq, decodedResponse, pknown_eq_decide]
  rfl

/-! ## Parts of a frame and trailing bytes -/

/-- R94: the header fields are read from the first 32 bytes. -/
theorem receivedFields_append {b : Bytes} (rest : Bytes) (hlong : 32 ≤ b.length) :
    receivedFields (b ++ rest) = receivedFields b := by
  have byte (k : Nat) (hk : k < 32) : (b ++ rest).getD k 0 = b.getD k 0 := List.getD_append b rest 0 k (by omega)
  simp only [receivedFields, List.take_append_of_le_length (show 4 ≤ b.length by omega), byte, Nat.reduceLT]

/-- R122: the payload and the covered bytes of a whole frame are those of any longer sequence. -/
theorem receivedPayload_append {b : Bytes} (rest : Bytes) (hwhole : 32 + (receivedFields b).len.toNat ≤ b.length) :
    receivedPayload (b ++ rest) = receivedPayload b := by
  rw [receivedPayload, receivedPayload, receivedFields_append rest (by omega),
    List.drop_append_of_le_length (by omega), List.take_append_of_le_length (by rw [List.length_drop]; omega)]

theorem coveredBytes_append {b : Bytes} (rest : Bytes) (hwhole : 32 + (receivedFields b).len.toNat ≤ b.length) :
    coveredBytes (b ++ rest) = coveredBytes b := by
  rw [coveredBytes, coveredBytes, receivedPayload_append rest hwhole, List.take_append_of_le_length (by omega),
    List.drop_append_of_le_length (by omega), List.take_append_of_le_length (by rw [List.length_drop]; omega)]

theorem IntactFrame.append {b : Bytes} (h : IntactFrame b) (rest : Bytes) : IntactFrame (b ++ rest) where
  sync := (congrArg HeaderFields.sync (receivedFields_append rest h.long)).trans h.sync
  whole := by
    rw [receivedFields_append rest h.long, List.length_append]
    exact h.whole.trans (Nat.le_add_right _ _)
  checksum := by rw [coveredBytes_append rest h.whole, receivedFields_append rest h.long, h.checksum]

/-- Settles O19: appended bytes change neither the checks nor what is read. -/
theorem trailingBytesAreIgnored : Obligations.TrailingBytesAreIgnored := by
  intro s s' r r' resp trailing hs ha hok hs' hinp
  have intact := pktDecode_ok_intact hs ha hok
  rw [pktDecode_intact hs' (hinp ▸ intact.append trailing), hinp, receivedFields_append trailing intact.long,
    receivedPayload_append trailing intact.whole]
  exact (pktDecode_intact hs intact resp).mp ha

/-! ## Frames written field by field -/

/-- R93, R121: the header bytes before the checksum, with any version. -/
def headerFront (h : HeaderFields) : Bytes :=
  h.sync ++ [h.ver, h.type] ++ be16 h.src ++ be16 h.dst ++ [h.pri, h.ttl] ++ be32 h.ts ++ be16 h.len

section
variable {h : HeaderFields} (hsync : h.sync = syncMarker) {reserved payload : Bytes}
include hsync

theorem headerFront_length : (headerFront h).length = 18 := by
  simp [headerFront, hsync]

/-- R94: the fields read are the fields written, whatever follows the checksum. -/
theorem receivedFields_written : receivedFields (headerFront h ++ be16 h.chk ++ reserved ++ payload) = h := by
  obtain ⟨sync, ver, type, src, dst, pri, ttl, ts, len, chk⟩ := h
  obtain rfl : sync = syncMarker := hsync
  simp [receivedFields, headerFront, syncMarker, be16, be32]

variable (hreserved : reserved.length = 12)
include hreserved

theorem headerWritten_length : (headerFront h ++ be16 h.chk ++ reserved).length = 32 := by
  simp [headerFront_length hsync, hreserved]

variable (hlen : h.len.toNat = payload.length)
include hlen

theorem receivedPayload_written :
    receivedPayload (headerFront h ++ be16 h.chk ++ reserved ++ payload) = payload := by
  rw [receivedPayload, receivedFields_written hsync, List.drop_left' (headerWritten_length hsync hreserved), hlen,
    List.take_length]

/-- R117: the covered bytes are the bytes written with the checksum 0, reserved bytes included. -/
theorem coveredBytes_written :
    coveredBytes (headerFront h ++ be16 h.chk ++ reserved ++ payload) =
      headerFront h ++ [0x00, 0x00] ++ reserved ++ payload := by
  have front := headerFront_length hsync
  have throughChecksum : (headerFront h ++ be16 h.chk).length = 20 := by simp [front]
  rw [coveredBytes, receivedPayload_written hsync hreserved hlen, List.append_assoc _ reserved,
    List.drop_left' throughChecksum, List.append_assoc (headerFront h), List.take_left' front,
    List.take_left' hreserved, List.append_assoc _ reserved]

theorem intactFrame_written (hsum : h.chk = crc16 (headerFront h ++ [0x00, 0x00] ++ reserved ++ payload)) :
    IntactFrame (headerFront h ++ be16 h.chk ++ reserved ++ payload) where
  sync := (congrArg HeaderFields.sync (receivedFields_written hsync)).trans hsync
  whole := by
    rw [receivedFields_written hsync, hlen, List.length_append, headerWritten_length hsync hreserved]
  checksum := by rw [coveredBytes_written hsync hreserved hlen, receivedFields_written hsync, hsum]

end

/-- Settles O20: the checks read none of these bytes but through the checksum, which covers them. -/
theorem decodeAcceptsAnyVersionTypePriority : Obligations.DecodeAcceptsAnyVersionTypePriority := by
  intro s r ver type pri ttl src dst sum ts reserved payload hs hreserved hlen n front hsum hinp
  let h : HeaderFields := ⟨syncMarker, ver, type, src, dst, pri, ttl, ts, n, sum⟩
  have declared : h.len.toNat = payload.length := toNat_length hlen
  have written : r.inp = headerFront h ++ be16 h.chk ++ reserved ++ payload := hinp
  have intact := intactFrame_written rfl hreserved declared hsum
  refine ⟨fun resp => ?_, fun hunknown => ?_⟩
  · rw [pktDecode_intact hs (written ▸ intact), written, receivedFields_written rfl,
      receivedPayload_written rfl hreserved declared, ← pknown_eq_decide]
    rfl
  · rw [tkindByte_eq_0xFF_iff, tkind_eq_none_iff]
    exact hunknown

/-! ## Encoded frames -/

section
variable (t : Byte) (s d : Half) (p ttl : Byte) (ts : Word) (payload : Bytes)

/-- R112: the header fields of the frame of a packet. -/
def frameFields : HeaderFields :=
  { sync := syncMarker, ver := protocolVersion, type := t, src := s, dst := d, pri := p, ttl := ttl, ts := ts,
    len := BitVec.ofNat 16 payload.length, chk := frameChecksum t s d p ttl ts payload }

/-- R93: `hdr` writes version 1 and zero reserved bytes. -/
theorem hdr_eq_headerFront (n c : Half) : hdr t s d p ttl ts n c =
    headerFront ⟨syncMarker, protocolVersion, t, s, d, p, ttl, ts, n, c⟩ ++ be16 c ++ zeros 12 := rfl

theorem frame_eq_written : frame t s d p ttl ts payload =
    headerFront (frameFields t s d p ttl ts payload) ++ be16 (frameFields t s d p ttl ts payload).chk ++ zeros 12 ++
      payload := by
  rw [frame, hdr_eq_headerFront, frameFields]

/-- R112: the checksum of a frame covers it with checksum bytes 0. -/
theorem frameFields_chk : (frameFields t s d p ttl ts payload).chk =
    crc16 (headerFront (frameFields t s d p ttl ts payload) ++ [0x00, 0x00] ++ zeros 12 ++ payload) := by
  have zeroBytes : be16 0 = [0x00, 0x00] := rfl
  simp only [frameFields, frameChecksum, hdr_eq_headerFront, headerFront, zeroBytes]

theorem receivedFields_frame :
    receivedFields (frame t s d p ttl ts payload) = frameFields t s d p ttl ts payload := by
  rw [frame_eq_written, receivedFields_written rfl]

variable {payload} (hlen : payload.length ≤ 65535)
include hlen

theorem receivedPayload_frame : receivedPayload (frame t s d p ttl ts payload) = payload := by
  rw [frame_eq_written, receivedPayload_written rfl (zeros_length 12) (toNat_length hlen)]

theorem frame_intact : IntactFrame (frame t s d p ttl ts payload) := by
  rw [frame_eq_written]
  exact intactFrame_written rfl (zeros_length 12) (toNat_length hlen) (frameFields_chk ..)

end

/-- Settles O22: the frame passes every check and is read back field by field, and what is appended changes nothing. -/
theorem packetRoundTrip : Obligations.PacketRoundTrip := by
  intro ttlp tsp s s' r r' resp f trailing hs ha hf hs' hinp
  obtain ⟨hlen, hts, hchk, hframe⟩ := pktEncode_frame hs ha hf
  have intact : IntactFrame f := by rw [hframe]; exact frame_intact _ _ _ _ _ _ hlen
  rw [pktDecode_intact hs' (hinp ▸ intact.append trailing), hinp, receivedFields_append trailing intact.long,
    receivedPayload_append trailing intact.whole, hframe, receivedFields_frame, receivedPayload_frame _ _ _ _ _ _ hlen,
    hts, hchk]
  simp only [decodedResponse, frameFields, protocolVersion, defaultTtl, Config.params]

/-- R112: an encoded frame is intact, and as long as its length field says. -/
theorem pktEncode_intact {ttlp tsp : Bool} {s : State} {r : Request} {resp : Response} {f : Bytes} (hs : s.Serves r)
    (ha : Answers (.pktEncode ttlp tsp) s resp) (hf : resp.out = some f) :
    IntactFrame f ∧ (receivedFields f).len.toNat = r.inp.length ∧ f.length = 32 + r.inp.length := by
  obtain ⟨hlen, -, -, rfl⟩ := pktEncode_frame hs ha hf
  refine ⟨frame_intact _ _ _ _ _ _ hlen, ?_, frame_length ..⟩
  rw [receivedFields_frame]
  exact toNat_length hlen

/-- Settles O23: a part of 32 bytes or more has the whole header, so it declares the whole length. -/
theorem truncatedFrames : Obligations.TruncatedFrames := by
  intro ttlp tsp s s' r r' resp f len hs ha hf hs' hinp
  obtain ⟨intact, declared, length⟩ := pktEncode_intact hs ha hf
  have cut : r'.inp.length = min len f.length := by rw [hinp, List.length_take]
  refine ⟨fun hshort => ?_, fun hlong hcut => ?_, fun hall => ?_⟩
  · exact pktDecode_tooShort hs' (by omega)
  · have long : 32 ≤ r'.inp.length := by omega
    have fields : receivedFields r'.inp = receivedFields f := by
      rw [← receivedFields_append (f.drop len) long, hinp, List.take_append_drop]
    refine pktDecode_truncated hs' long ?_ ?_
    · exact (congrArg HeaderFields.sync fields).trans intact.sync
    · rw [fields, declared]
      omega
  · rw [hall, ← length, List.take_length] at hinp
    exact ⟨_, (pktDecode_intact hs' (hinp ▸ intact) _).mpr rfl, rfl⟩

/-! ## Flipped bits -/

@[simp] theorem flipBit_length (b : Bytes) (k j : Nat) : (flipBit b k j).length = b.length := List.length_modify ..

theorem flipBit_take (b : Bytes) (k j n : Nat) : (flipBit b k j).take n = flipBit (b.take n) k j :=
  List.take_modify ..

theorem flipBit_of_length_le {b : Bytes} {k : Nat} (j : Nat) (h : b.length ≤ k) : flipBit b k j = b :=
  List.modify_eq_self h

theorem flipBit_getD (b : Bytes) {k i : Nat} (j : Nat) (h : k ≠ i) : (flipBit b k j).getD i 0 = b.getD i 0 := by
  simp only [List.getD_eq_getElem?_getD, flipBit, List.getElem?_modify_ne _ _ h]

theorem flipBit_getD_self_ne {b : Bytes} {k j : Nat} (hk : k < b.length) (hj : j < 8) :
    (flipBit b k j).getD k 0 ≠ b.getD k 0 := by
  simpa [flipBit, hk] using xor_bit_ne b[k] hj

/-- R9: a half is the pair of its bytes. -/
theorem rd16_inj {hi lo hi' lo' : Byte} : rd16 hi lo = rd16 hi' lo' ↔ hi = hi' ∧ lo = lo' := by
  refine ⟨fun h => ?_, fun ⟨hhi, hlo⟩ => hhi ▸ hlo ▸ rfl⟩
  simpa using congrArg be16 h

/-- R127: a flipped bit shows in the half it lies in, and in no other. -/
theorem rd16_flipBit_ne {b : Bytes} {k j i : Nat} (hk : k < b.length) (hj : j < 8) (hi : k = i ∨ k = i + 1) :
    rd16 ((flipBit b k j).getD i 0) ((flipBit b k j).getD (i + 1) 0) ≠ rd16 (b.getD i 0) (b.getD (i + 1) 0) := by
  intro h
  obtain ⟨first, second⟩ := rd16_inj.mp h
  obtain rfl | rfl := hi
  · exact flipBit_getD_self_ne hk hj first
  · exact flipBit_getD_self_ne hk hj second

theorem rd16_flipBit {b : Bytes} {k i : Nat} (j : Nat) (h : k ≠ i) (h' : k ≠ i + 1) :
    rd16 ((flipBit b k j).getD i 0) ((flipBit b k j).getD (i + 1) 0) = rd16 (b.getD i 0) (b.getD (i + 1) 0) := by
  rw [flipBit_getD b j h, flipBit_getD b j h']

/-- R117: `b` with its checksum field zeroed. -/
def clearChecksum (b : Bytes) : Bytes := (b.set 18 0x00).set 19 0x00

@[simp] theorem clearChecksum_length (b : Bytes) : (clearChecksum b).length = b.length := by simp [clearChecksum]

theorem clearChecksum_eq {b : Bytes} (h : 20 ≤ b.length) :
    clearChecksum b = b.take 18 ++ [0x00, 0x00] ++ b.drop 20 := by
  have fields : b = b.take 18 ++ b[18] :: b[19] :: b.drop 20 := by simp
  have before : (b.take 18).length = 18 := List.length_take_of_le (by omega)
  rw [clearChecksum, congrArg (List.set · 18 0x00) fields, List.set_append_right _ _ before.le,
    List.set_append_right _ _ (by omega), before, List.append_assoc]
  rfl

/-- R117: the covered bytes stand in `b` at their own offsets, but for the zeroed ones. -/
theorem coveredBytes_eq_take {b : Bytes} (h : 32 ≤ b.length) :
    coveredBytes b = (clearChecksum b).take (32 + (receivedFields b).len.toNat) := by
  have header : (b.take 18 ++ [0x00, 0x00] ++ (b.drop 20).take 12).length = 32 := by simp; omega
  have after : b.drop 20 = (b.drop 20).take 12 ++ b.drop 32 := by
    rw [← (List.drop_drop : (b.drop 20).drop 12 = b.drop 32), List.take_append_drop]
  rw [clearChecksum_eq (by omega), after, ← List.append_assoc, List.take_append, header,
    List.take_of_length_le (by omega), Nat.add_sub_cancel_left]
  rfl

theorem set_flipBit (b : Bytes) {k i : Nat} (j : Nat) (x : Byte) (h : k ≠ i) :
    (flipBit b k j).set i x = flipBit (b.set i x) k j := by
  simp only [List.set_eq_modify, flipBit, List.modify_modify_ne _ _ b h]

theorem set_flipBit_self (b : Bytes) (k j : Nat) (x : Byte) : (flipBit b k j).set k x = b.set k x := by
  simp only [List.set_eq_modify, flipBit, List.modify_modify_eq]
  rfl

/-- R117: a flipped bit of the checksum field is not covered. -/
theorem clearChecksum_flipBit_checksum (b : Bytes) {k : Nat} (j : Nat) (h : k = 18 ∨ k = 19) :
    clearChecksum (flipBit b k j) = clearChecksum b := by
  obtain rfl | rfl := h
  · rw [clearChecksum, set_flipBit_self, clearChecksum]
  · rw [clearChecksum, set_flipBit _ _ _ (by decide), set_flipBit_self, clearChecksum]

theorem clearChecksum_flipBit (b : Bytes) {k : Nat} (j : Nat) (h18 : k ≠ 18) (h19 : k ≠ 19) :
    clearChecksum (flipBit b k j) = flipBit (clearChecksum b) k j := by
  rw [clearChecksum, set_flipBit _ _ _ h18, set_flipBit _ _ _ h19, clearChecksum]

/-- R127: outside the length field, one flipped bit of a frame makes its checksum wrong: the stored one, or the one over
the covered bytes (R104). -/
theorem flipBit_checksum_ne {b : Bytes} (hb : IntactFrame b) {k j : Nat}
    (hk : k < 32 + (receivedFields b).len.toNat) (hj : j < 8) (h16 : k ≠ 16) (h17 : k ≠ 17) :
    crc16 (coveredBytes (flipBit b k j)) ≠ (receivedFields (flipBit b k j)).chk := by
  have long := hb.long
  have whole := hb.whole
  have len : (receivedFields (flipBit b k j)).len = (receivedFields b).len := rd16_flipBit j h16 h17
  rw [coveredBytes_eq_take (by simpa using hb.long), len]
  by_cases inChecksum : k = 18 ∨ k = 19
  · rw [clearChecksum_flipBit_checksum b j inChecksum, ← coveredBytes_eq_take hb.long, hb.checksum]
    exact (rd16_flipBit_ne (by omega) hj inChecksum).symm
  · obtain ⟨h18, h19⟩ := not_or.mp inChecksum
    have chk : (receivedFields (flipBit b k j)).chk = (receivedFields b).chk := rd16_flipBit j h18 h19
    rw [clearChecksum_flipBit b j h18 h19, flipBit_take, ← coveredBytes_eq_take hb.long, chk, ← hb.checksum]
    refine crcErrorDetection.2 _ k j ?_ hj
    rw [coveredBytes_eq_take hb.long, List.length_take, clearChecksum_length]
    omega

/-- R127: a flipped bit of the sync marker shows there. -/
theorem flipBit_sync_ne {b : Bytes} (hsync : b.take 4 = syncMarker) {k j : Nat} (hk : k < 4) (hj : j < 8) :
    (flipBit b k j).take 4 ≠ syncMarker := by
  rw [flipBit_take, hsync]
  intro h
  exact flipBit_getD_self_ne (b := syncMarker) hk hj (by rw [h])

theorem flipBit_sync {b : Bytes} (hsync : b.take 4 = syncMarker) {k : Nat} (j : Nat) (hk : 4 ≤ k) :
    (flipBit b k j).take 4 = syncMarker := by
  rw [flipBit_take, hsync, flipBit_of_length_le j hk]

/-- Settles O24: the flipped bit lies in the sync marker, in the length field or among the other bytes, which the
checksum covers or is. -/
theorem singleBitFlips : Obligations.SingleBitFlips := by
  intro ttlp tsp s s' r r' resp f k j hs ha hf hk hj hs' hinp len stored covered
  obtain ⟨intact, declared, length⟩ := pktEncode_intact hs ha hf
  have length' : r'.inp.length = 32 + r.inp.length := by rw [hinp, flipBit_length, length]
  have sync (h : 4 ≤ k) : r'.inp.take 4 = syncMarker := hinp ▸ flipBit_sync intact.sync j h
  refine ⟨fun hmarker => ?_, fun hother h16 h17 => ?_, fun hlength => ⟨?_, fun hlonger => ?_, fun hshorter => ?_⟩⟩
  · exact pktDecode_badSync hs' (by omega) (hinp ▸ flipBit_sync_ne intact.sync hmarker hj)
  · have len' : (receivedFields r'.inp).len = (receivedFields f).len := hinp ▸ rd16_flipBit j h16 h17
    refine pktDecode_checksumMismatch hs' (sync hother) (by rw [len']; omega) ?_
    exact hinp ▸ flipBit_checksum_ne intact (declared ▸ hk) hj h16 h17
  · rw [← declared]
    refine fun heq => rd16_flipBit_ne (b := f) (by omega) hj hlength ?_
    exact hinp ▸ BitVec.eq_of_toNat_eq heq
  · refine pktDecode_truncated hs' (by omega) (sync (by omega)) ?_
    change r'.inp.length < 32 + len
    omega
  · have whole : 32 + len ≤ r'.inp.length := by omega
    refine ⟨fun hsame => ?_, fun hdiffers => ?_⟩
    · exact ⟨_, (pktDecode_intact hs' ⟨sync (by omega), whole, hsame⟩ _).mpr rfl, rfl⟩
    · exact pktDecode_checksumMismatch hs' (sync (by omega)) whole hdiffers

/-! ## ADDRESSED -/

theorem addressedTo_eq_decide (dst node : Half) : addressedTo dst node = decide (dst = node ∨ dst = 0xFFFF) := by
  simp [addressedTo, broadcast, beq_eq_decide]

/-- Settles O21: ADDRESSED is an `execute`. -/
theorem addressedCompletes : Obligations.AddressedCompletes := by
  refine ⟨decode_encode .addressed, fun s c cs h hfit => ?_⟩
  rw [← addressedTo_eq_decide]
  exact execute_cons addressedResponse h hfit

end Sys2Proof.Machine
end

section
/-! PROOFS of the family `42_alert_codec.md`: the bytes of an AlertPayload (R140), the answers of the three alert
commands (R141, R142, R147), stripping trailing nulls and UTF-8 validity (R148, R149), and the alert's way through a
frame (R150, R151). -/

namespace Sys2Proof.Machine

/-! ## The AlertPayload -/

/-- R140: both cases of `msg256` at once, since cutting a shorter message and padding a longer one do nothing. -/
theorem msg256_eq (m : Bytes) : msg256 m = m.take 256 ++ zeros (256 - m.length) := by
  unfold msg256 messageLength
  split
  next h => simp [zeros, Nat.sub_eq_zero_of_le h]
  next h => rw [List.take_of_length_le (by omega)]

theorem msg256_getElem? (m : Bytes) {i : Nat} (h : i < 256) : (msg256 m)[i]? = some (m.getD i 0x00) := by
  rw [msg256_eq]
  obtain hm | hm := lt_or_ge i m.length
  · rw [List.getElem?_append_left (by simp; omega), List.getElem?_take_of_lt h]
    simp [hm]
  · rw [List.getElem?_append_right (by simp; omega), List.getD_eq_default _ _ hm, zeros,
      List.getElem?_replicate_of_lt (by simp; omega)]

/-- Settles O9: class, tone and the message field stand one after the other. -/
theorem alertPayloadBytes : Obligations.AlertPayloadBytes := fun cl tn m =>
  ⟨alertPayload_length cl tn m, rfl, rfl, fun _ hi => msg256_getElem? m hi⟩

/-! ## ALERT_PRIORITY and ALERT_ENCODE -/

/-- Settles O25: ALERT_PRIORITY is an `execute`. -/
theorem alertPriorityCompletes : Obligations.AlertPriorityCompletes :=
  ⟨decode_encode .alertPriority, fun _ _ _ h hfit => execute_cons alertPriorityResponse h hfit⟩

/-- Settles O26: ALERT_ENCODE always draws `NOW`, and its payload has 258 bytes whatever the message is. -/
theorem alertEncodeCompletes : Obligations.AlertEncodeCompletes := by
  refine ⟨decode_encode .alertEncode, fun s c cs h hfit => ?_⟩
  rw [exec_cons _ h hfit, respond, alertEncodeResponse, frame, frameChecksum, alertPayload_length]
  rfl

/-- R142: the PKT_ENCODE request that ALERT_ENCODE stands for. -/
def alertPacket (p : Params) (r : Request) : Request :=
  { r with
    aType := p.typeCodes.code .alert
    aPri := alertPrio r.aClass
    inp := alertPayload r.aClass r.aTone r.inp }

/-- R142: ALERT_ENCODE answers what PKT_ENCODE of the alert's packet does, and the priority. -/
theorem alertEncodeResponse_eq {p : Params} (now : Word) (r : Request) (h : 258 ≤ p.maxPayload) :
    alertEncodeResponse p now r =
      { pktEncodeResponse p false false now (alertPacket p r) with rPri := some (alertPrio r.aClass) } := by
  have fits : (alertPacket p r).inp.length ≤ p.maxPayload := (alertPayload_length ..).trans_le h
  rw [pktEncodeResponse_fits false false now fits]
  rfl

/-- Settles O27: both commands answer on the same draw. -/
theorem alertEncodeIsPktEncode : Obligations.AlertEncodeIsPktEncode := by
  intro s s' r resp resp' hs ha hs' hdraw ha'
  rw [answers_iff _ hs, respond, alertEncodeResponse_eq _ r (by decide)] at ha
  rw [answers_iff _ hs', hdraw] at ha'
  rw [ha, ha']
  rfl

/-! ## ALERT_DECODE -/

/-- R147: the checks of ALERT_DECODE in their order, on the bytes of the payload. -/
theorem alertDecodeResponse_eq (p : Params) (r : Request) :
    alertDecodeResponse p r =
      let m := rstrip0 ((r.inp.drop 2).take 256)
      if r.aType ≠ p.typeCodes.code .alert then .failed .notAnAlert
      else if r.inp.length ≠ 258 then .failed .malformedAlertPayload
      else if utf8Valid m = false then .failed .invalidText
      else { status := .ok, rClass := some (r.inp.getD 0 0), rTone := some (r.inp.getD 1 0), out := some m } := by
  unfold alertDecodeResponse alertLength
  split
  · rfl
  split
  · rfl
  next hlen =>
    obtain ⟨cl, tn, field, hin⟩ : ∃ cl tn field, r.inp = cl :: tn :: field := by
      match r.inp, not_not.mp hlen with
      | cl :: tn :: field, _ => exact ⟨cl, tn, field, rfl⟩
    have whole : field.take 256 = field := List.take_of_length_le (by simp [hin] at hlen; omega)
    simp only [hin, List.drop_succ_cons, List.drop_zero, whole]
    cases utf8Valid (rstrip0 field) <;> rfl

/-- Settles O28: ALERT_DECODE is an `execute`, with the checks in order. -/
theorem alertDecodeCompletes : Obligations.AlertDecodeCompletes := by
  refine ⟨decode_encode .alertDecode, fun s c cs h hfit => ?_⟩
  refine (execute_cons (alertDecodeResponse Config.params) h hfit).trans ?_
  rw [alertDecodeResponse_eq]
  rfl

/-- R147: NotAnAlert is the answer to another type, and to no other request. -/
theorem alertDecodeResponse_notAnAlert_iff (p : Params) (r : Request) :
    alertDecodeResponse p r = .failed .notAnAlert ↔ r.aType ≠ p.typeCodes.code .alert := by
  rw [alertDecodeResponse_eq]
  dsimp only
  split_ifs with htype <;> simp [htype, Response.failed]

/-- R140, R147: an AlertPayload has the length asked for, so only its text can be at fault. -/
theorem alertDecodeResponse_alertPayload {p : Params} {r : Request} {cl tn : Byte} {m : Bytes}
    (htype : r.aType = p.typeCodes.code .alert) (hin : r.inp = alertPayload cl tn m) :
    alertDecodeResponse p r =
      if utf8Valid (rstrip0 (msg256 m)) then
        { status := .ok, rClass := some cl, rTone := some tn, out := some (rstrip0 (msg256 m)) }
      else .failed .invalidText := by
  rw [alertDecodeResponse, alertLength, if_neg (not_not.mpr htype), hin,
    if_neg (not_not.mpr (alertPayload_length cl tn m))]
  rfl

/-! ## Demultiplexing and the round trip -/

/-- R81, R91: with injective codes the kind 5 stands for the type ALERT alone. -/
theorem tkindByte_eq_5_iff (b : Byte) : tkindByte Config.typeCodes b = 5 ↔ b = Config.typeCodes.code .alert :=
  ((typeClassification.2 Config.typeCodes b typeCodes_distinct).1 .alert).trans eq_comm

/-- Settles O33: a decoded packet's kind is the kind of its type, and 5 exactly for ALERT. -/
theorem demultiplexByType : Obligations.DemultiplexByType := by
  intro s s' r r' packet hs ha hok hs' htype
  have intact := pktDecode_ok_intact hs ha hok
  obtain rfl := (pktDecode_intact hs intact packet).mp ha
  obtain htype : (receivedFields r.inp).type = r'.aType := Option.some.inj htype
  have kind : (decodedResponse Config.params (receivedFields r.inp) (receivedPayload r.inp)).rTkind = some 5 ↔
      r'.aType = Config.typeCodes.code .alert := by
    rw [decodedResponse, htype]
    exact Option.some_inj.trans (tkindByte_eq_5_iff _)
  have answer : Answers .alertDecode s' { status := .notAnAlert } ↔ r'.aType ≠ Config.typeCodes.code .alert :=
    (answers_iff _ hs' _).trans (eq_comm.trans (alertDecodeResponse_notAnAlert_iff Config.params r'))
  rw [ne_eq, kind, answer]
  exact ⟨id, not_not.mpr⟩

/-- Settles O31: the frame passes every check and is read back field by field, and the text of its payload alone decides
what ALERT_DECODE answers. -/
theorem alertRoundTrip : Obligations.AlertRoundTrip := by
  intro s s' s'' r r' r'' resp f hs ha hf hs' hframe hs'' htype hin
  obtain rfl := (answers_iff _ hs resp).mp ha
  obtain rfl := Option.some.inj hf
  have payloadFits : (alertPayload r.aClass r.aTone r.inp).length ≤ 65535 := by simp
  have decoded := alertDecodeResponse_alertPayload (p := Config.params) htype hin
  refine ⟨⟨_, (pktDecode_intact hs' (hframe ▸ frame_intact _ _ _ _ _ _ payloadFits) _).mpr rfl, ?_⟩, ?_, ?_⟩
  · rw [hframe, receivedFields_frame, receivedPayload_frame _ _ _ _ _ _ payloadFits, frameFields, alertPayload_length,
      hin]
    have kind := (tkindByte_eq_5_iff _).mpr rfl
    exact ⟨rfl, rfl, congrArg some kind, rfl, rfl, rfl, rfl⟩
  · intro hvalid
    rw [answers_iff _ hs'', respond, decoded, if_pos hvalid]
  · intro hinvalid
    rw [answers_iff _ hs'', respond, decoded, hinvalid]
    rfl

/-! ## Stripping trailing nulls -/

/-- R148: a byte goes exactly where it is null and everything after it goes. -/
theorem rstrip0_cons (b : Byte) (bs : Bytes) :
    rstrip0 (b :: bs) = if rstrip0 bs = [] ∧ b = 0x00 then [] else b :: rstrip0 bs := by
  cases h : rstrip0 bs <;> simp [rstrip0, h]

theorem eq_rstrip0_append_zeros (b : Bytes) : ∃ n, b = rstrip0 b ++ zeros n := by
  induction b with
  | nil => exact ⟨0, rfl⟩
  | cons x xs ih =>
    obtain ⟨n, hn⟩ := ih
    rw [rstrip0_cons]
    split
    next h =>
      obtain ⟨hempty, rfl⟩ := h
      rw [hempty] at hn
      exact ⟨n + 1, congrArg (0x00 :: ·) hn⟩
    next => exact ⟨n, congrArg (x :: ·) hn⟩

theorem rstrip0_getLast?_ne (b : Bytes) : (rstrip0 b).getLast? ≠ some 0x00 := by
  induction b with
  | nil => nofun
  | cons x xs ih =>
    rw [rstrip0_cons]
    split
    · nofun
    next h =>
      cases hx : rstrip0 xs with
      | nil => simpa [hx] using h
      | cons y ys => simpa [hx] using ih

/-- Settles O29: the index is the length of what is kept, whose last byte is not null. -/
theorem trailingNullsStripped : Obligations.TrailingNullsStripped := by
  intro b
  obtain ⟨n, hb⟩ := eq_rstrip0_append_zeros b
  have last := rstrip0_getLast?_ne b
  generalize rstrip0 b = kept at hb last ⊢
  subst hb
  refine ⟨kept.length, by simp, List.take_left.symm, fun i hi hlen => ?_, fun j hj => ?_⟩
  · rw [List.length_append, zeros_length] at hlen
    rw [List.getElem?_append_right hi, zeros, List.getElem?_replicate_of_lt (by omega)]
  · by_contra! hlt
    refine last ?_
    rw [List.getLast?_eq_getElem?, ← List.getElem?_append_left (l₂ := zeros n) (by omega)]
    exact hj _ (by omega) (by rw [List.length_append]; omega)

/-! ## UTF-8 validity -/

@[simp] theorem ByteRange.has_iff (g : ByteRange) (b : Byte) :
    g.has b = true ↔ g.lo ≤ b.toNat ∧ b.toNat ≤ g.hi :=
  decide_eq_true_iff

/-- R149: the bytes lie in the ranges, one in each. -/
def InRanges : List ByteRange → Bytes → Prop := List.Forall₂ fun g b => g.has b = true

@[simp] theorem inRanges_nil_iff (t : Bytes) : InRanges [] t ↔ t = [] := List.forall₂_nil_left_iff

@[simp] theorem not_inRanges_cons_nil (g : ByteRange) (gs : List ByteRange) : ¬ InRanges (g :: gs) [] := nofun

@[simp] theorem inRanges_cons_cons (g : ByteRange) (gs : List ByteRange) (b : Byte) (t : Bytes) :
    InRanges (g :: gs) (b :: t) ↔ g.has b = true ∧ InRanges gs t := List.forall₂_cons

/-- R149: no byte begins sequences of two rows. -/
theorem utf8Table_disjoint : ∀ row ∈ utf8Table, ∀ row' ∈ utf8Table,
    row = row' ∨ row.1.hi < row'.1.lo ∨ row'.1.hi < row.1.lo := by decide

/-- R149: `utf8Tail` is the table, read by first byte. -/
theorem utf8Tail_eq_some_iff (b : Byte) (tail : List ByteRange) :
    utf8Tail b = some tail ↔ ∃ row ∈ utf8Table, row.1.has b = true ∧ row.2 = tail := by
  simp only [utf8Tail, Option.map_eq_some_iff]
  constructor
  · rintro ⟨row, hfind, htail⟩
    exact ⟨row, List.mem_of_find?_eq_some hfind, by simpa using List.find?_some hfind, htail⟩
  · rintro ⟨row, hmem, hhas, htail⟩
    obtain ⟨row', hfind⟩ : ∃ row', utf8Table.find? (fun row => row.1.has b) = some row' :=
      Option.isSome_iff_exists.mp (List.find?_isSome.mpr ⟨row, hmem, hhas⟩)
    have hhas' : row'.1.has b = true := by simpa using List.find?_some hfind
    have bounds := (ByteRange.has_iff _ b).mp hhas
    have bounds' := (ByteRange.has_iff _ b).mp hhas'
    obtain rfl | hdisjoint := utf8Table_disjoint row hmem row' (List.mem_of_find?_eq_some hfind)
    · exact ⟨row, hfind, htail⟩
    · omega

/-- R149: the scan owes one byte to each range, and then begins anew. -/
theorem utf8Scan_iff (gs : List ByteRange) (m : Bytes) :
    utf8Scan gs m = true ↔ ∃ t rest, m = t ++ rest ∧ InRanges gs t ∧ utf8Valid rest = true := by
  induction gs generalizing m with
  | nil => simp [utf8Valid]
  | cons g gs ih =>
    cases m with
    | nil => simp
    | cons b bs =>
      rw [utf8Scan_owed_cons, Bool.and_eq_true, ih]
      constructor
      · rintro ⟨hb, t, rest, rfl, ht, hrest⟩
        exact ⟨b :: t, rest, rfl, (inRanges_cons_cons ..).mpr ⟨hb, ht⟩, hrest⟩
      · rintro ⟨_ | ⟨b', t⟩, rest, hm, ht, hrest⟩
        · exact absurd ht (not_inRanges_cons_nil g gs)
        · obtain ⟨rfl, rfl⟩ := List.cons.inj hm
          obtain ⟨hb, ht⟩ := (inRanges_cons_cons ..).mp ht
          exact ⟨hb, t, rest, rfl, ht, hrest⟩

/-- R149: the well-formed sequences are those of the table's rows, by the number of bytes after the first. -/
theorem utf8Sequence_cons_iff (a : Byte) (t : Bytes) :
    utf8Sequence (a :: t) ↔ ∃ row ∈ utf8Table, row.1.has a = true ∧ InRanges row.2 t := by
  match t with
  | [] => simp [utf8Sequence, utf8Table, BitVec.le_def]
  | [b] => simp [utf8Sequence, utf8Table, BitVec.le_def, and_assoc]
  | [b, c] =>
    simp [utf8Sequence, utf8Table, BitVec.le_def, ← BitVec.toNat_inj]
    omega
  | [b, c, d] =>
    simp [utf8Sequence, utf8Table, BitVec.le_def, ← BitVec.toNat_inj]
    omega
  | _ :: _ :: _ :: _ :: _ => simp [utf8Sequence, utf8Table]

/-- R149: a valid sequence is empty, or a well-formed sequence with a valid one after it. -/
theorem utf8Valid_iff (m : Bytes) :
    utf8Valid m = true ↔ m = [] ∨ ∃ q rest, m = q ++ rest ∧ utf8Sequence q ∧ utf8Valid rest = true := by
  cases m with
  | nil => simp [utf8Valid]
  | cons a bs =>
    have begins : utf8Valid (a :: bs) = true ↔ ∃ tail, utf8Tail a = some tail ∧ utf8Scan tail bs = true := by
      rw [utf8Valid, utf8Scan_begin]
      cases utf8Tail a <;> simp
    simp only [begins, utf8Tail_eq_some_iff, utf8Scan_iff, reduceCtorEq, false_or]
    constructor
    · rintro ⟨_, ⟨row, hrow, ha, rfl⟩, t, rest, rfl, ht, hrest⟩
      exact ⟨a :: t, rest, rfl, (utf8Sequence_cons_iff a t).mpr ⟨row, hrow, ha, ht⟩, hrest⟩
    · rintro ⟨_ | ⟨a', t⟩, rest, hm, hq, hrest⟩
      · exact hq.elim
      · obtain ⟨rfl, rfl⟩ := List.cons.inj hm
        obtain ⟨row, hrow, ha, ht⟩ := (utf8Sequence_cons_iff a t).mp hq
        exact ⟨row.2, ⟨row, hrow, ha, rfl⟩, t, rest, rfl, ht, hrest⟩

theorem utf8Valid_flatten {qs : List Bytes} (h : ∀ q ∈ qs, utf8Sequence q) : utf8Valid qs.flatten = true := by
  induction qs with
  | nil => rfl
  | cons q qs ih =>
    obtain ⟨hq, hqs⟩ := List.forall_mem_cons.mp h
    exact (utf8Valid_iff _).mpr (.inr ⟨q, qs.flatten, rfl, hq, ih hqs⟩)

theorem utf8Sequence_length_pos {q : Bytes} (h : utf8Sequence q) : 0 < q.length :=
  List.length_pos_iff.mpr (by rintro rfl; exact h)

/-- R149: a valid sequence is split by taking its first well-formed sequence off, which shortens it. -/
theorem exists_flatten_of_utf8Valid (m : Bytes) (h : utf8Valid m = true) :
    ∃ qs : List Bytes, m = qs.flatten ∧ ∀ q ∈ qs, utf8Sequence q := by
  obtain hm | ⟨q, rest, hm, hq, hrest⟩ := (utf8Valid_iff m).mp h
  · exact ⟨[], hm, nofun⟩
  · have shorter : rest.length < m.length := by simpa [hm] using utf8Sequence_length_pos hq
    obtain ⟨qs, hqs, hseqs⟩ := exists_flatten_of_utf8Valid rest hrest
    exact ⟨q :: qs, by rw [hm, hqs, List.flatten_cons], List.forall_mem_cons.mpr ⟨hq, hseqs⟩⟩
termination_by m.length

/-- Settles O30: the scan begins anew after each well-formed sequence. -/
theorem utf8ValidIsConcatenation : Obligations.Utf8ValidIsConcatenation := fun m =>
  ⟨exists_flatten_of_utf8Valid m, fun ⟨_, hm, hqs⟩ => hm ▸ utf8Valid_flatten hqs⟩

/-! ## Messages that are recovered -/

/-- R140, R148: the padding of the message field is stripped again. -/
theorem rstrip0_msg256 (m : Bytes) : rstrip0 (msg256 m) = rstrip0 (m.take 256) := by
  rw [msg256_eq, rstrip0_append_zeros]

theorem utf8Valid_ascii {m : Bytes} (h : ∀ b ∈ m, b < 0x80) : utf8Valid m = true := by
  induction m with
  | nil => rfl
  | cons b bs ih =>
    obtain ⟨hb, hbs⟩ := List.forall_mem_cons.mp h
    rw [utf8Valid, utf8Scan_begin, utf8Tail_ascii hb]
    exact ih hbs

/-- Settles O32: neither message, once cut, ends in a null, so stripping the field removes the padding alone. -/
theorem alertMessageRecovered : Obligations.AlertMessageRecovered := by
  refine ⟨fun m hlen _ hlast => ?_, fun m hascii => ?_⟩
  · rw [rstrip0_msg256, List.take_of_length_le hlen, rstrip0_of_last hlast]
  · have kept (b : Byte) (hb : b ∈ m.take 256) : 0x00 < b ∧ b < 0x80 := hascii b (List.mem_of_mem_take hb)
    have notNull : (m.take 256).getLast? ≠ some 0x00 := fun hlast =>
      absurd (kept 0x00 (List.mem_of_getLast? hlast)).1 (by decide)
    exact ⟨by rw [rstrip0_msg256, rstrip0_of_last notNull], utf8Valid_ascii fun b hb => (kept b hb).2⟩

end Sys2Proof.Machine
end

section
/-! PROOFS of the family `70_reset_and_hazards.md`: what a reset leaves (R190), that the commands it abandons are never
answered (R191), that every outstanding command completes (R195), and when a run has ended normally (R196). -/

namespace Sys2Proof.Machine

/-! ## A reset -/

theorem step_reset {s : State} {ms : List Move} (ha : s.agenda = .reset :: ms) :
    step s = .next (resetEngine { s with agenda := ms }) := by
  simp only [step, ha, takeMove]

/-- Settles O43: the step is the reset, which drops every outstanding command and every response. -/
theorem resetLeavesTheEngineIdle : Obligations.ResetLeavesTheEngineIdle := fun _ _ ha =>
  ⟨_, step_reset ha, rfl, fun _ _ => rfl, rfl, rfl, rfl, rfl⟩

/-! ## Abandoned commands -/

/-- R191: a command in progress is lost at a reset: it was issued, and nothing is outstanding or answered any more. -/
theorem resetEngine_lost {s : State} {c : Command} (h : s.Inv) (hc : c ∈ s.outstanding) :
    (resetEngine s).lost c.tag :=
  ⟨h.tagsIssued c.tag (by simpa [State.tags] using .inl ⟨c, hc, rfl⟩), List.not_mem_nil, List.not_mem_nil⟩

theorem resetEngine_keeps_lost {s : State} {tag : Nat} (h : s.lost tag) : (resetEngine s).lost tag := by
  obtain ⟨issued, -, -⟩ := h
  exact ⟨issued, List.not_mem_nil, List.not_mem_nil⟩

/-- R20: an issued request is given the next tag, which no lost command has. -/
theorem issue_keeps_lost {s t : State} {r : Request} {tag : Nat} (h : s.lost tag) (hi : issue r s = .next t) :
    t.lost tag := by
  obtain ⟨-, rfl⟩ := issue_next hi
  obtain ⟨issued, notOutstanding, notAnswered⟩ := h
  refine ⟨Nat.lt_succ_of_lt issued, ?_, notAnswered⟩
  simpa [issued.ne] using notOutstanding

/-- R20: the engine's turn answers an outstanding command, and a lost one is not outstanding. -/
theorem engineTurn_keeps_lost {s t : State} {k tag : Nat} (h : s.lost tag) (ht : engineTurn exec k s = .next t) :
    t.lost tag := by
  obtain ⟨-, rfl⟩ | ⟨c, resp, draws, hc, -, -, rfl⟩ := engineTurn_next ht
  · exact h
  · obtain ⟨issued, notOutstanding, notAnswered⟩ := h
    have other : tag ≠ c.tag := fun htag =>
      notOutstanding (htag ▸ List.mem_map_of_mem (List.mem_of_getElem? hc))
    refine ⟨issued, fun hmem => notOutstanding ?_, ?_⟩
    · exact ((List.eraseIdx_sublist ..).map _).subset hmem
    · simpa [other] using notAnswered

/-- R191: nothing a step can do brings a lost command back. -/
theorem step_keeps_lost {s t : State} {tag : Nat} (h : s.lost tag) (hs : step s = .next t) : t.lost tag := by
  obtain ⟨r, ms, -, hi⟩ | ⟨k, ms, -, he⟩ | ⟨ms, -, rfl⟩ | ⟨tag', f, ms, -, hr⟩ | ⟨-, k, p, he⟩ := step_next hs
  · exact issue_keeps_lost (s := { s with agenda := ms }) h hi
  · exact engineTurn_keeps_lost (s := { s with agenda := ms }) h he
  · exact resetEngine_keeps_lost (s := { s with agenda := ms }) h
  · obtain ⟨v, rfl⟩ := readField_next hr
    exact h
  · exact engineTurn_keeps_lost (s := { s with picks := p }) h he

/-- Settles O45: a reset loses the commands in progress, and every step keeps a lost command lost. -/
theorem abandonedCommandIsNeverAnswered : Obligations.AbandonedCommandIsNeverAnswered := by
  refine ⟨fun s s' ms c hinv ha hc hs => ?_, fun _ _ _ => step_keeps_lost⟩
  rw [step_reset ha] at hs
  cases hs
  exact resetEngine_lost (hinv.with_bookkeeping ms s.lastRead s.nowDraws s.picks) hc

/-! ## With no other move to come, every outstanding command completes -/

/-- R59: with no move to come and a command outstanding, the step is the engine's turn at an outstanding command. -/
theorem step_free {s : State} (ha : s.agenda = []) (hne : s.outstanding ≠ []) :
    ∃ k < s.outstanding.length, ∃ p, step s = engineTurn exec k { s with picks := p } := by
  have hpos : 0 < s.outstanding.length := List.length_pos_iff.mpr hne
  have hstep : step s = engineFree exec s := by simp only [step, ha]
  rw [hstep, engineFree]
  split
  · exact ⟨0, hpos, s.picks, rfl⟩
  · exact ⟨_, Nat.mod_lt _ hpos, _, rfl⟩

/-- R196: with no move to come, the engine's completions led from `s` to `t`: no command is left outstanding, nothing was
abandoned, and the tags in use are the same, so that those of the outstanding commands are now those of responses. -/
structure DrainsTo (s t : State) : Prop where
  agenda      : t.agenda = []
  outstanding : t.outstanding = []
  abandoned   : t.abandoned = s.abandoned
  tags        : t.tags.Perm s.tags

/-- R22: each outstanding command has had its response. -/
theorem DrainsTo.responses_perm {s t : State} (h : DrainsTo s t) :
    (t.responses.map (·.tag)).Perm (s.outstanding.map (·.tag) ++ s.responses.map (·.tag)) := by
  have tags := h.tags
  simp only [State.tags, h.outstanding, h.abandoned] at tags
  exact (List.perm_append_right_iff _).mp tags

theorem DrainsTo.answered {s t : State} (h : DrainsTo s t) {c : Command} (hc : c ∈ s.outstanding) :
    ∃ d ∈ t.responses, d.tag = c.tag :=
  List.mem_map.mp (h.responses_perm.symm.subset (List.mem_append_left _ (List.mem_map_of_mem hc)))

/-- R195: each step completes one of the outstanding commands, whichever the free value picks. -/
theorem runSteps_drains {n : Nat} {s : State} (hn : s.outstanding.length = n) (ha : s.agenda = [])
    (hfit : ∀ c ∈ s.outstanding, withinCapacity c.req.inp.length = true) :
    ∃ t, runSteps n s = .next t ∧ DrainsTo s t := by
  induction n generalizing s with
  | zero => exact ⟨s, rfl, ha, List.length_eq_zero_iff.mp hn, rfl, .refl _⟩
  | succ n ih =>
    obtain ⟨k, hk, p, hstep⟩ := step_free ha (List.ne_nil_of_length_eq_add_one hn)
    obtain ⟨draws, resp, hturn⟩ := engineTurn_completes (s := { s with picks := p })
      (List.getElem?_eq_getElem hk) (hfit _ (List.getElem_mem hk))
    obtain ⟨t, hrun, hdrain⟩ := ih (s := State.answer { s with picks := p, nowDraws := draws } s.outstanding[k]
        (s.outstanding.eraseIdx k) resp)
      (by simp [List.length_eraseIdx_of_lt hk, hn]) ha (fun c hc => hfit c (List.mem_of_mem_eraseIdx hc))
    refine ⟨t, (runSteps_next n (hstep.trans hturn)).trans hrun, hdrain.agenda, hdrain.outstanding, hdrain.abandoned, ?_⟩
    exact hdrain.tags.trans (State.answer_tags_perm resp (List.getElem_cons_eraseIdx_perm hk))

/-- Settles O48: the run completes one outstanding command at each step until none is left. -/
theorem everyIssuedCommandCompletes : Obligations.EveryIssuedCommandCompletes := by
  intro s ha hfit
  obtain ⟨t, hrun, hdrain⟩ := runSteps_drains rfl ha hfit
  exact ⟨t, hrun, hdrain.outstanding, fun _ => hdrain.answered⟩

/-! ## The normal end of a run -/

theorem State.endsNormally_iff (s : State) :
    s.endsNormally = true ↔ s.agenda = [] ∧ s.outstanding = [] ∧ s.abandoned = [] := by
  simp [State.endsNormally, and_assoc]

theorem State.not_endsNormally_of_outstanding {s : State} (h : s.outstanding ≠ []) : s.endsNormally = false :=
  Bool.eq_false_iff.mpr fun hend => have ⟨_, ho, _⟩ := s.endsNormally_iff.mp hend; h ho

theorem State.not_endsNormally_of_abandoned {s : State} (h : s.abandoned ≠ []) : s.endsNormally = false :=
  Bool.eq_false_iff.mpr fun hend => have ⟨_, _, hab⟩ := s.endsNormally_iff.mp hend; h hab

theorem engineTurn_abandoned {s t : State} {k : Nat} (h : engineTurn exec k s = .next t) :
    t.abandoned = s.abandoned := by
  obtain ⟨-, rfl⟩ | ⟨c, resp, draws, -, -, -, rfl⟩ := engineTurn_next h <;> rfl

/-- R191: nothing takes a command off the abandoned list, and only a reset puts one on. -/
theorem step_abandoned_prefix {s t : State} (hs : step s = .next t) : s.abandoned <+: t.abandoned := by
  obtain ⟨r, ms, -, hi⟩ | ⟨k, ms, -, he⟩ | ⟨ms, -, rfl⟩ | ⟨tag, f, ms, -, hr⟩ | ⟨-, k, p, he⟩ := step_next hs
  · obtain ⟨-, rfl⟩ := issue_next hi
    exact List.prefix_rfl
  · exact (engineTurn_abandoned he).symm ▸ List.prefix_rfl
  · exact List.prefix_append _ _
  · obtain ⟨v, rfl⟩ := readField_next hr
    exact List.prefix_rfl
  · exact (engineTurn_abandoned he).symm ▸ List.prefix_rfl

/-- A run of one step and more that answers a state took that step. -/
theorem runSteps_succ_next {n : Nat} {s t : State} (h : runSteps (n + 1) s = .next t) :
    ∃ u, step s = .next u ∧ runSteps n u = .next t := by
  cases hs : step s with
  | next u => exact ⟨u, rfl, (runSteps_next n hs).symm.trans h⟩
  | fault r => simp [runSteps, hs] at h
  | refused r => simp [runSteps, hs] at h

theorem runSteps_abandoned_prefix {n : Nat} {s t : State} (h : runSteps n s = .next t) :
    s.abandoned <+: t.abandoned := by
  induction n generalizing s with
  | zero => cases h; exact List.prefix_rfl
  | succ n ih =>
    obtain ⟨u, hs, hrun⟩ := runSteps_succ_next h
    exact (step_abandoned_prefix hs).trans (ih hrun)

theorem State.responseOf_isSome_iff (s : State) (tag : Nat) :
    (s.responseOf tag).isSome = true ↔ ∃ d ∈ s.responses, d.tag = tag := by
  simp [State.responseOf]

/-- R191, 95_test_vectors.md P5: after a reset in the middle of a command, its request issued again is a new command, the
only one outstanding, and the next step answers it. -/
theorem reset_issue_completes {s : State} {r : Request} (hfit : withinCapacity r.inp.length = true) :
    ∃ t, runSteps 3 { s with agenda := [.reset, .issue r] } = .next t ∧
      (∃ d ∈ t.responses, d.tag = s.issued) ∧ t.abandoned = s.abandoned ++ s.outstanding := by
  have hreset := step_reset (s := { s with agenda := [.reset, .issue r] }) rfl
  have hissue := (step_issue (s := resetEngine { s with agenda := [.issue r] }) rfl).trans (issue_fits hfit)
  obtain ⟨t, hrun, hdrain⟩ := runSteps_drains (n := 1)
    (s := { resetEngine { s with agenda := [] } with outstanding := [⟨s.issued, r⟩], issued := s.issued + 1 })
    rfl rfl (by simpa using hfit)
  refine ⟨t, ?_, hdrain.answered List.mem_cons_self, hdrain.abandoned⟩
  rw [runSteps_next 2 hreset, runSteps_next 1 hissue]
  exact hrun

/-- Settles O49: the run of O48 reaches a normal end where nothing was abandoned, and no run from a state with an abandoned
command does, for the abandoned list only grows. -/
theorem normalEndMeansEveryCommandEnded : Obligations.NormalEndMeansEveryCommandEnded := by
  refine ⟨fun s ha hab hfit => ?_, fun _ => State.not_endsNormally_of_outstanding, fun s ms ha ho => ?_,
    fun n s t hab hrun => ?_, fun s c ho hfit => ?_⟩
  · obtain ⟨t, hrun, hdrain⟩ := runSteps_drains rfl ha hfit
    exact ⟨t, hrun, t.endsNormally_iff.mpr ⟨hdrain.agenda, hdrain.outstanding, hdrain.abandoned.trans hab⟩⟩
  · exact ⟨_, step_reset ha, List.append_ne_nil_of_right_ne_nil _ ho⟩
  · have kept : t.abandoned ≠ [] := fun hnil => hab (List.prefix_nil.mp (hnil ▸ runSteps_abandoned_prefix hrun))
    exact ⟨kept, State.not_endsNormally_of_abandoned kept⟩
  · obtain ⟨t, hrun, hanswered, hab⟩ := reset_issue_completes (s := s) hfit
    have kept : t.abandoned ≠ [] := by simp [hab, ho]
    exact ⟨t, hrun, (t.responseOf_isSome_iff _).mpr hanswered, State.not_endsNormally_of_abandoned kept⟩

end Sys2Proof.Machine
end
